-- ==== Sys2Proof/Word.lean ====
section
/-!
DEFINITION. The two word types of the CTD (00_scope.md section 4): bytes of 8 bits, and the program
counter, addresses and return addresses of 16 bits. Their `+` and `-` wrap, as `+16`, `-16` and `-8`
of 00_scope.md section 6.1 do.
-/

namespace Sys2Proof

/-- `u8`: a byte of memory, a displacement, a restart vector, the counting register. -/
abbrev Byte := BitVec 8

/-- `u16`: the program counter, the stack pointer, an address, an index-register value. -/
abbrev Word := BitVec 16

end Sys2Proof
end

