-- ==== Sys2Proof/Config.lean ====
section
/-!
DEFINITION. What is fixed for the machine: the reset values the spec decides (10_state.md R24), the
values this model names where the spec leaves a reset value open (log entries 3 and 4), the vector
set of the decoder (30_encoding.md R54), and the bound on one opcode fetch. The CTD leaves no result
undefined (93_implementation_defined.md section 1), so there is no free value here.
-/

namespace Sys2Proof.Config

/-- `RESET_PC` (10_state.md R24, D14). -/
def resetPc : Word := 0x0000

/-- `RESET_IN_NMI` (10_state.md R24, D16). -/
def resetInNmi : Bool := false

/-- `RESET_SP`, open in the spec (D15). DESIGN CHOICE, log entry 3. -/
def resetSp : Word := 0x0000

/-- `RESET_B`, open in the spec (D15). DESIGN CHOICE, log entry 3. -/
def resetB : Byte := 0x00

/-- `RESET_FLAGS`, open in the spec (D15), each of the four flags. DESIGN CHOICE, log entry 3. -/
def resetFlag : Bool := false

/-- `RESET_IDX`, open in the spec (D15), each index register. DESIGN CHOICE, log entry 3. -/
def resetIndex : Word := 0x0000

/-- What a byte of memory reads as that nothing has written. DESIGN CHOICE, log entry 4. -/
def unlistedByte : Byte := 0x00

/-- `VECTOR_SET`, the vectors the decoder can issue (30_encoding.md R54, D10). -/
def vectorSet : List Byte := [0x00, 0x08, 0x10, 0x18, 0x20, 0x28, 0x30, 0x38]

/-- The most opcode bytes one fetch reads. After 65536 index prefixes the fetch has come back to where
it began and would go on for ever; two more bytes let the last place hold `0xED` (log entry 14). -/
def fetchLimit : Nat := 65538

end Sys2Proof.Config
end

