-- ==== Sys2Proof/Syntax.lean ====
section
/-!
DEFINITION. The operations of the CTD as syntax: one constructor per row of spec/opcode_table.json,
in the table's order. A constructor carries what the select word carries (the condition descriptor,
the vector; 30_encoding.md R52) and, for the index jump, the register the decoder has selected. The
operand bytes `d` and `nn` are no part of an operation: the operation fetches them itself from the
instruction stream (R55; log entry 23).
-/

namespace Sys2Proof

/-- The four condition flags (10_state.md R18). -/
inductive Flag where
  | z | c | pv | s
  deriving DecidableEq, Repr

/-- A condition descriptor: a flag and the value it is expected to have (30_encoding.md R53). -/
structure Cond where
  flag     : Flag
  expected : Bool
  deriving DecidableEq, Repr

/-- The registers that can be the current index register (10_state.md R20, 30_encoding.md R62). -/
inductive IndexReg where
  | hl | ix | iy
  deriving DecidableEq, Repr

/-- The operations of 30_encoding.md R50, with the index jump once per index register (R62). -/
inductive Instr where
  | djnz
  | jr
  | jrCc (cc : Cond)
  | retCc (cc : Cond)
  | jpCc (cc : Cond)
  | jp
  | callCc (cc : Cond)
  | rst (v : Byte)
  | ret
  | call
  | jpHl
  | jpIx
  | jpIy
  | retn
  | reti
  deriving DecidableEq, Repr

/-- The three operand formats of 30_encoding.md R55: none, a displacement byte, an address. -/
inductive Format where
  | n | d | nn
  deriving DecidableEq, Repr

/-- The operand bytes that follow the opcode byte(s) in the instruction stream. -/
inductive Operand where
  | absent
  | disp (d : Byte)
  | addr (nn : Word)
  deriving DecidableEq, Repr

end Sys2Proof
end

