-- ==== Sys2Proof/WellFormed.lean ====
section
/-!
DEFINITION. Which operations have instruction bytes. The CTD accepts every condition with every
conditional kind and every vector (30_encoding.md R53, R54); an external decoder has bytes for `JR cc`
with NZ, Z, NC, C only and for the vectors of `VECTOR_SET` only (R62, 90_conflicts.md C6). The meanings
do not ask for well-formedness.
-/

namespace Sys2Proof

/-- The conditions `JR cc` has opcode bytes for: `CC = {0, cc}` (30_encoding.md R62). -/
def Cond.hasRelativeByte (cc : Cond) : Bool :=
  match cc.flag with
  | .z => true
  | .c => true
  | .pv => false
  | .s => false

/-- The operation has instruction bytes (30_encoding.md R62). -/
def Instr.wellFormed : Instr → Bool
  | .djnz => true
  | .jr => true
  | .jrCc cc => cc.hasRelativeByte
  | .retCc _ => true
  | .jpCc _ => true
  | .jp => true
  | .callCc _ => true
  | .rst v => Config.vectorSet.contains v
  | .ret => true
  | .call => true
  | .jpHl => true
  | .jpIx => true
  | .jpIy => true
  | .retn => true
  | .reti => true

/-- The operand format of an operation (30_encoding.md R50, R55). -/
def Instr.format : Instr → Format
  | .djnz => .d
  | .jr => .d
  | .jrCc _ => .d
  | .retCc _ => .n
  | .jpCc _ => .nn
  | .jp => .nn
  | .callCc _ => .nn
  | .rst _ => .n
  | .ret => .n
  | .call => .nn
  | .jpHl => .n
  | .jpIx => .n
  | .jpIy => .n
  | .retn => .n
  | .reti => .n

/-- The operand has the format's shape. -/
def Operand.fits : Operand → Format → Bool
  | .absent, .n => true
  | .disp _, .d => true
  | .addr _, .nn => true
  | .absent, .d => false
  | .absent, .nn => false
  | .disp _, .n => false
  | .disp _, .nn => false
  | .addr _, .n => false
  | .addr _, .d => false

end Sys2Proof
end

