-- ==== Sys2Proof/Decode.lean ====
section
/-!
DEFINITION. From bytes to operations and back. The decoder is the external one of 30_encoding.md R62
and R63, total on any bytes; the select word `CMD` of R52 is decoded beside it. After the decoders
stand the encoders, written from the same tables.
-/

namespace Sys2Proof

/-! ## Condition descriptors (30_encoding.md R53) -/

/-- The two bits `CC[2:1]`. -/
def Flag.code : Flag → BitVec 2
  | .z => 0
  | .c => 1
  | .pv => 2
  | .s => 3

def Flag.ofCode (k : BitVec 2) : Flag :=
  if k = 0 then .z else if k = 1 then .c else if k = 2 then .pv else .s

/-- `CC`: the flag above, the expected value in bit 0. -/
def Cond.code (cc : Cond) : BitVec 3 := cc.flag.code ++ BitVec.ofBool cc.expected

def Cond.ofCode (k : BitVec 3) : Cond :=
  { flag := Flag.ofCode (k.extractLsb' 1 2), expected := k.getLsbD 0 }

/-! ## Instruction bytes (30_encoding.md R62, R63) -/

/-- Why bytes are no operation of the CTD: instructions that are no control transfer are out of scope
(00_scope.md section 3.2). Raised by `decode`. -/
inductive Reject where
  /-- No row of R62 has this opcode byte. -/
  | notControlTransfer (opcode : Byte)
  /-- No row of R62 has this byte after the prefix `0xED`. -/
  | notControlTransferEd (second : Byte)
  deriving DecidableEq, Repr

/-- What a string of bytes begins with. -/
inductive Decoded where
  /-- The opcode byte(s) of an operation, and the bytes after them. -/
  | op (i : Instr) (rest : List Byte)
  /-- Prefixes only (or nothing): the decoder asks for one more byte. -/
  | needMore
  | reject (r : Reject)
  deriving DecidableEq, Repr

/-- One row of R62 that is told by one byte: the bits that are fixed, their values, and the operation
made from the others. -/
structure OpcodeRow where
  mask  : Byte
  value : Byte
  build : Byte → Instr

/-- The field `ccc` (bits 5..3) or `cc` with a 0 above it (bits 4..3), as a descriptor. -/
def fieldCcc (b : Byte) : Cond := Cond.ofCode (b.extractLsb' 3 3)

def fieldCc (b : Byte) : Cond := Cond.ofCode (0#1 ++ b.extractLsb' 3 2)

/-- `VEC = {0b00, ttt, 0b000}` from the field `ttt` (bits 5..3). -/
def fieldVector (b : Byte) : Byte := (0#2 ++ b.extractLsb' 3 3) ++ 0#3

/-- The index jump through the current index register. -/
def indexJump : IndexReg → Instr
  | .hl => .jpHl
  | .ix => .jpIx
  | .iy => .jpIy

/-- The rows of R62 that the first byte after the index prefixes selects, under the current index
register. -/
def firstByteRows (current : IndexReg) : List OpcodeRow :=
  [ ⟨0xFF, 0x10, fun _ => .djnz⟩,
    ⟨0xFF, 0x18, fun _ => .jr⟩,
    ⟨0xE7, 0x20, fun b => .jrCc (fieldCc b)⟩,
    ⟨0xC7, 0xC0, fun b => .retCc (fieldCcc b)⟩,
    ⟨0xC7, 0xC2, fun b => .jpCc (fieldCcc b)⟩,
    ⟨0xFF, 0xC3, fun _ => .jp⟩,
    ⟨0xC7, 0xC4, fun b => .callCc (fieldCcc b)⟩,
    ⟨0xC7, 0xC7, fun b => .rst (fieldVector b)⟩,
    ⟨0xFF, 0xC9, fun _ => .ret⟩,
    ⟨0xFF, 0xCD, fun _ => .call⟩,
    ⟨0xFF, 0xE9, fun _ => indexJump current⟩ ]

/-- The rows of R62 on the page of the prefix `0xED`; the last six are the undocumented duplicates,
which "a decoder that takes them maps ... to `KIND` 11" (R63). DESIGN CHOICE, log entry 11. -/
def edRows : List OpcodeRow :=
  [ ⟨0xFF, 0x45, fun _ => .retn⟩,
    ⟨0xFF, 0x4D, fun _ => .reti⟩,
    ⟨0xFF, 0x55, fun _ => .retn⟩,
    ⟨0xFF, 0x65, fun _ => .retn⟩,
    ⟨0xFF, 0x75, fun _ => .retn⟩,
    ⟨0xFF, 0x5D, fun _ => .retn⟩,
    ⟨0xFF, 0x6D, fun _ => .retn⟩,
    ⟨0xFF, 0x7D, fun _ => .retn⟩ ]

/-- The operation of the first row that the byte matches: `b AND mask = value`. -/
def lookupRow (rows : List OpcodeRow) (b : Byte) : Option Instr :=
  match rows with
  | [] => none
  | r :: more => if b &&& r.mask = r.value then some (r.build b) else lookupRow more b

/-- The register an index prefix makes current for the instruction that follows (R63). -/
def indexPrefix (b : Byte) : Option IndexReg :=
  if b = 0xDD then some .ix else if b = 0xFD then some .iy else none

/-- The page of the prefix `0xED`. -/
def decodeEd : List Byte → Decoded
  | [] => .needMore
  | b :: rest =>
    match lookupRow edRows b with
    | some i => .op i rest
    | none => .reject (.notControlTransferEd b)

/-- Decoding with a current index register. An index prefix changes it for the instruction that
follows, whatever that is, so the last of several counts (R63; DEDUCED, log entry 10). -/
def decodeWith (current : IndexReg) : List Byte → Decoded
  | [] => .needMore
  | b :: rest =>
    match indexPrefix b with
    | some x => decodeWith x rest
    | none =>
      if b = 0xED then decodeEd rest
      else
        match lookupRow (firstByteRows current) b with
        | some i => .op i rest
        | none => .reject (.notControlTransfer b)

/-- The external decoder of R62 and R63: with no prefix the current index register is `HL`. -/
def decode (bytes : List Byte) : Decoded := decodeWith .hl bytes

/-- An operand of a format at the head of a string of bytes: R55, with `nn` little-endian (R57). -/
def decodeOperand : Format → List Byte → Option (Operand × List Byte)
  | .n, bytes => some (.absent, bytes)
  | .d, d :: rest => some (.disp d, rest)
  | .d, [] => none
  | .nn, lo :: hi :: rest => some (.addr (hi ++ lo), rest)
  | .nn, [_] => none
  | .nn, [] => none

/-- A whole instruction: the operation, its operand bytes, and what follows. -/
def decodeWhole (bytes : List Byte) : Option (Instr × Operand × List Byte) :=
  match decode bytes with
  | .op i rest =>
    match decodeOperand i.format rest with
    | some (o, rest') => some (i, o, rest')
    | none => none
  | .needMore => none
  | .reject _ => none

/-! ## The select word `CMD` (30_encoding.md R52, R61) -/

/-- `CMD[14:11]`, `CMD[10:8]` and `CMD[7:0]`. -/
def cmdKind (cmd : BitVec 15) : BitVec 4 := cmd.extractLsb' 11 4
def cmdCc (cmd : BitVec 15) : BitVec 3 := cmd.extractLsb' 8 3
def cmdVec (cmd : BitVec 15) : Byte := cmd.extractLsb' 0 8

/-- The operation a select word selects, with the index register resolved by the decoder; none for the
reserved kinds 13, 14, 15. Fields an operation does not read are ignored. -/
def decodeCmd (cmd : BitVec 15) (current : IndexReg) : Option Instr :=
  match (cmdKind cmd).toNat with
  | 0 => some .jr
  | 1 => some (.jrCc (Cond.ofCode (cmdCc cmd)))
  | 2 => some .jp
  | 3 => some (.jpCc (Cond.ofCode (cmdCc cmd)))
  | 4 => some (indexJump current)
  | 5 => some .call
  | 6 => some (.callCc (Cond.ofCode (cmdCc cmd)))
  | 7 => some (.rst (cmdVec cmd))
  | 8 => some .ret
  | 9 => some (.retCc (Cond.ofCode (cmdCc cmd)))
  | 10 => some .reti
  | 11 => some .retn
  | 12 => some .djnz
  | _ => none

/-! ## The encoders -/

/-- An opcode byte with a 3-bit field in bits 5..3. -/
def withField (base : Byte) (field : BitVec 3) : Byte := base ||| ((0#2 ++ field) ++ 0#3)

/-- The opcode byte(s) of a well-formed operation, in memory order (R62). -/
def encode : Instr → List Byte
  | .djnz => [0x10]
  | .jr => [0x18]
  | .jrCc cc => [withField 0x20 cc.code]
  | .retCc cc => [withField 0xC0 cc.code]
  | .jpCc cc => [withField 0xC2 cc.code]
  | .jp => [0xC3]
  | .callCc cc => [withField 0xC4 cc.code]
  | .rst v => [withField 0xC7 (v.extractLsb' 3 3)]
  | .ret => [0xC9]
  | .call => [0xCD]
  | .jpHl => [0xE9]
  | .jpIx => [0xDD, 0xE9]
  | .jpIy => [0xFD, 0xE9]
  | .retn => [0xED, 0x45]
  | .reti => [0xED, 0x4D]

/-- The operand bytes in memory order (R55, R57). -/
def encodeOperand : Operand → List Byte
  | .absent => []
  | .disp d => [d]
  | .addr nn => [nn.extractLsb' 0 8, nn.extractLsb' 8 8]

/-- A whole instruction in memory order: opcode byte(s), then operand bytes. -/
def encodeWhole (i : Instr) (o : Operand) : List Byte := encode i ++ encodeOperand o

/-- The length in bytes, opcode and operands, as the table of R62 gives it. -/
def Instr.lengthInBytes : Instr → Nat
  | .djnz => 2
  | .jr => 2
  | .jrCc _ => 2
  | .retCc _ => 1
  | .jpCc _ => 3
  | .jp => 3
  | .callCc _ => 3
  | .rst _ => 1
  | .ret => 1
  | .call => 3
  | .jpHl => 1
  | .jpIx => 2
  | .jpIy => 2
  | .retn => 2
  | .reti => 2

/-- `KIND` of R50. -/
def Instr.kind : Instr → BitVec 4
  | .jr => 0
  | .jrCc _ => 1
  | .jp => 2
  | .jpCc _ => 3
  | .jpHl => 4
  | .jpIx => 4
  | .jpIy => 4
  | .call => 5
  | .callCc _ => 6
  | .rst _ => 7
  | .ret => 8
  | .retCc _ => 9
  | .reti => 10
  | .retn => 11
  | .djnz => 12

/-- The condition an operation tests, if it is one of the four conditional kinds. -/
def Instr.condition : Instr → Option Cond
  | .jrCc cc => some cc
  | .retCc cc => some cc
  | .jpCc cc => some cc
  | .callCc cc => some cc
  | .djnz => none
  | .jr => none
  | .jp => none
  | .rst _ => none
  | .ret => none
  | .call => none
  | .jpHl => none
  | .jpIx => none
  | .jpIy => none
  | .retn => none
  | .reti => none

/-- The field `CC` of the select word, 0 where the operation does not read it. -/
def Instr.ccField (i : Instr) : BitVec 3 :=
  match i.condition with
  | some cc => cc.code
  | none => 0

/-- The field `VEC` of the select word, 0 where the operation does not read it. -/
def Instr.vecField : Instr → Byte
  | .rst v => v
  | .djnz => 0
  | .jr => 0
  | .jrCc _ => 0
  | .retCc _ => 0
  | .jpCc _ => 0
  | .jp => 0
  | .callCc _ => 0
  | .ret => 0
  | .call => 0
  | .jpHl => 0
  | .jpIx => 0
  | .jpIy => 0
  | .retn => 0
  | .reti => 0

/-- The index register the decoder has selected: `HL` without a prefix. -/
def Instr.selectedIndex : Instr → IndexReg
  | .jpIx => .ix
  | .jpIy => .iy
  | .jpHl => .hl
  | .djnz => .hl
  | .jr => .hl
  | .jrCc _ => .hl
  | .retCc _ => .hl
  | .jpCc _ => .hl
  | .jp => .hl
  | .callCc _ => .hl
  | .rst _ => .hl
  | .ret => .hl
  | .call => .hl
  | .retn => .hl
  | .reti => .hl

/-- A select word from its three fields. -/
def mkCmd (kind : BitVec 4) (cc : BitVec 3) (vec : Byte) : BitVec 15 := (kind ++ cc) ++ vec

/-- The select word the decoder presents for an operation (R52, R62). -/
def encodeCmd (i : Instr) : BitVec 15 := mkCmd i.kind i.ccField i.vecField

/-! ## The numbering of spec/opcode_table.json -/

/-- The four rows of the table that have two opcode bytes, as the table numbers them: "the first byte
the most significant" (end of 30_encoding.md). Log entry 15. -/
def twoByteMatches : List Nat := [0xDDE9, 0xFDE9, 0xED45, 0xED4D]

/-- The three bytes, in memory order, of an instruction given as a number of `nbits` bits: the first
byte the least significant, but for the two-byte opcodes as the table numbers them (log entry 15). The
bits above are 0. -/
def tableBytes (nbits w : Nat) : List Byte :=
  let v := w % 2 ^ nbits
  if nbits = 16 ∧ v ∈ twoByteMatches then [BitVec.ofNat 8 (v / 256), BitVec.ofNat 8 v, 0x00]
  else [BitVec.ofNat 8 v, BitVec.ofNat 8 (v / 256), BitVec.ofNat 8 (v / 65536)]

/-- The operation the decoder reads from an instruction numbered as spec/opcode_table.json does. -/
def decodeTableWord (nbits w : Nat) : Option Instr :=
  match decode (tableBytes nbits w) with
  | .op i _ => some i
  | .needMore => none
  | .reject _ => none

end Sys2Proof
end

