-- ==== Sys2Proof/Machine/State.lean ====
section
/-!
DEFINITION. The state of the machine (10_state.md R10: the list is exact), the open parameters ENV_FAIL
and MEM_MAP as plain data, the reset state, and the reasons for which a step stops.
-/

namespace Sys2Proof.Machine

/-- The four condition flags (10_state.md R18). -/
structure Flags where
  z  : Bool
  c  : Bool
  pv : Bool
  s  : Bool
  deriving DecidableEq, Repr

/-- An environment operation that may fail (60_exceptions.md R121; the sub-steps of R122). -/
inductive EnvCall where
  /-- A byte read at an address: an opcode fetch, an operand fetch or a pop. -/
  | memRead (a : Word)
  /-- A byte write at an address: a push. -/
  | memWrite (a : Word)
  /-- `get8` of the counting register. -/
  | get8
  /-- `set8` of the counting register. -/
  | set8
  /-- `get_flag`. -/
  | getFlag (f : Flag)
  /-- `index_value`. -/
  | indexValue
  /-- `end_nmi`. -/
  | endNmi
  deriving DecidableEq, Repr

/-- What a region of memory is on the platform (20_memory.md R32, D3). -/
inductive RegionKind where
  /-- A read returns the byte last written. -/
  | ram
  /-- A write is accepted and does not change what a later read returns. -/
  | rom
  /-- The address is out of range: an access fails. -/
  | hole
  /-- A device whose behaviour the spec does not give. -/
  | device
  deriving DecidableEq, Repr

/-- The addresses from `base` to `last`, both included. -/
structure Region where
  base : Word
  last : Word
  kind : RegionKind
  deriving DecidableEq, Repr

/-- The open parameters of the spec that decide what the environment does: `ENV_FAIL` (D12), as the list
of the environment operations that fail, and `MEM_MAP` (D3), as a list of regions of which the first
that holds an address counts. No operation changes them. Log entry 5. -/
structure Env where
  failing : List EnvCall
  memMap  : List Region
  deriving DecidableEq, Repr

/-- The spec's default: no environment operation fails, memory is RAM everywhere (R32, D3, D12). -/
def Env.default : Env := { failing := [], memMap := [] }

/-- The machine's state: 10_state.md R10, with `IDX` as the registers that can be current (log entry 16),
and the model's own field `env`. The latches `OFS`, `IMM`, `RA` are no state (R23; log entry 22). -/
structure State where
  /-- `PC` (R11). -/
  pc    : Word
  /-- `SP` (R15). -/
  sp    : Word
  /-- `REG8[CNT_ID]`, register `B` (R16, D8). -/
  b     : Byte
  /-- `FLAG[Z]`, `FLAG[C]`, `FLAG[PV]`, `FLAG[S]` (R18). -/
  flags : Flags
  /-- `IDX` when the current index register is `HL` (R20). -/
  hl    : Word
  /-- `IDX` after the prefix `0xDD` (R20, R62). -/
  ix    : Word
  /-- `IDX` after the prefix `0xFD` (R20, R62). -/
  iy    : Word
  /-- `IN_NMI` (R21). -/
  inNmi : Bool
  /-- `MEM[0x0000 .. 0xFFFF]` (R30). -/
  mem   : Memory
  /-- ENV_FAIL and MEM_MAP, the model's own field. -/
  env   : Env
  deriving DecidableEq, Repr

/-- The values of R24 that the spec leaves to the launch: `RESET_SP`, `RESET_B`, `RESET_FLAGS`, and
`RESET_IDX` for each index register. -/
structure ResetParams where
  sp    : Word
  b     : Byte
  flags : Flags
  hl    : Word
  ix    : Word
  iy    : Word
  deriving DecidableEq, Repr

/-- The state after reset for given parameters, launch memory and environment (R24, R140). -/
def State.launch (p : ResetParams) (mem : Memory) (env : Env) : State :=
  { pc := Config.resetPc, sp := p.sp, b := p.b, flags := p.flags, hl := p.hl, ix := p.ix, iy := p.iy,
    inNmi := Config.resetInNmi, mem := mem, env := env }

/-- The values this model names for the open parameters. DESIGN CHOICE, log entry 3. -/
def ResetParams.named : ResetParams :=
  { sp := Config.resetSp, b := Config.resetB,
    flags := { z := Config.resetFlag, c := Config.resetFlag, pv := Config.resetFlag, s := Config.resetFlag },
    hl := Config.resetIndex, ix := Config.resetIndex, iy := Config.resetIndex }

/-- The machine right after reset: `PC` and `IN_NMI` as R24 says, the open parameters as named, memory
with nothing listed, the default environment. -/
def State.reset : State := State.launch ResetParams.named [] Env.default

/-- Why the machine stops with a fault. -/
inductive Fault where
  /-- `EnvFail` (60_exceptions.md R121): the environment operation `call` failed, the operation stopped
  there, and `left` is the state its earlier sub-steps left (R122). Raised by `askEnv` and by an access
  to a hole in Machine/Ops.lean, on behalf of every operation and of the opcode fetch. It cannot happen
  in the default environment. Safe: the spec treats it as a fault too. -/
  | envFail (call : EnvCall) (left : State)
  deriving DecidableEq, Repr

/-- Why the model gives no next state without the machine having a fault. -/
inductive Refusal where
  /-- An operation that has no meaning yet, rejected by name in `exec`. Safe. -/
  | notModelled (mnemonic : String)
  /-- The bytes at `PC` are no control transfer, which is out of scope (00_scope.md section 3.2; log entry
  12). Raised by the opcode fetch. Safe. -/
  | undecoded (r : Reject)
  /-- `KIND` 13, 14 or 15 on the select word (30_encoding.md R61). Raised by `startOperation`. Safe. -/
  | reservedKind (kind : BitVec 4)
  /-- An access to a region that MEM_MAP gives to a device; the spec does not say what devices do (D3;
  log entry 8). Raised by `readMem` and `writeMem`. Safe. -/
  | deviceAccess (call : EnvCall)
  /-- Every byte of memory is an index prefix, so no instruction ever begins (log entry 14). Raised by
  the opcode fetch. Safe. -/
  | endlessPrefixes
  deriving DecidableEq, Repr

end Sys2Proof.Machine
end

