-- ==== Sys2Proof/Machine/Access.lean ====
section
/-!
DEFINITION. The accessors of the state: every register has one home in State and is written by one
function here.
-/

namespace Sys2Proof.Machine

/-- `set_pc` (40_pc_alu_relative.md R72). -/
def State.setPc (s : State) (v : Word) : State := { s with pc := v }
def State.setSp (s : State) (v : Word) : State := { s with sp := v }
/-- `set8(CNT_ID)` (10_state.md R16). -/
def State.setB (s : State) (v : Byte) : State := { s with b := v }
def State.setMem (s : State) (m : Memory) : State := { s with mem := m }
def State.setInNmi (s : State) (v : Bool) : State := { s with inNmi := v }

/-- The flag `f` (10_state.md R18). -/
def Flags.get (fl : Flags) : Flag → Bool
  | .z => fl.z
  | .c => fl.c
  | .pv => fl.pv
  | .s => fl.s

/-- `IDX` when the current index register is `x` (10_state.md R20). -/
def State.index (s : State) : IndexReg → Word
  | .hl => s.hl
  | .ix => s.ix
  | .iy => s.iy

/-- The byte at a 16-bit address. -/
def State.byteAt (s : State) (a : Word) : Byte := s.mem.read a.toNat

/-- The word at a 16-bit address: little-endian, the second address wrapping (20_memory.md R34). -/
def State.wordAt (s : State) (a : Word) : Word := s.byteAt (a + 1#16) ++ s.byteAt a

/-- Store a byte in plain memory. -/
def State.storeByte (s : State) (a : Word) (v : Byte) : State := s.setMem (s.mem.write a.toNat v)

/-- What a region map makes of an address: the first region that holds it counts, else RAM (R32). -/
def regionKind : List Region → Word → RegionKind
  | [], _ => .ram
  | r :: more, a => if r.base ≤ a ∧ a ≤ r.last then r.kind else regionKind more a

end Sys2Proof.Machine
end

