-- ==== Sys2Proof/Machine/Micro.lean ====
section
/-!
DEFINITION. The outcome of a micro-operation: a value and the state after it, or a stop. Pseudocode
statements run in the order written (00_scope.md section 6.5); `Micro.bind` is that order.
-/

namespace Sys2Proof.Machine

/-- What a sub-step gives: it completes with a value, or the operation stops there (R121). -/
inductive Micro (α : Type) where
  | ok (a : α) (s : State)
  | fault (r : Fault)
  | refuse (r : Refusal)
  deriving DecidableEq, Repr

/-- One sub-step, then the rest; a stop is handed on unchanged (R121). -/
def Micro.bind {α β : Type} (m : Micro α) (rest : α → State → Micro β) : Micro β :=
  match m with
  | .ok a s => rest a s
  | .fault r => .fault r
  | .refuse r => .refuse r

/-- A whole operation's outcome as the host reads it. -/
def Micro.outcome (m : Micro Unit) : Host.Outcome State Fault Refusal :=
  match m with
  | .ok _ s => .next s
  | .fault r => .fault r
  | .refuse r => .refused r

end Sys2Proof.Machine
end

