-- ==== Sys2Proof/Machine/Ops.lean ====
section
/-!
DEFINITION. The shared operations over memory and registers: asking the environment, memory access,
push and pop, the linkage operations, the entries of interrupt handlers and the return. Each follows the
pseudocode of the rule it cites, sub-step by sub-step, so that a failure leaves what R122 says.
-/

namespace Sys2Proof.Machine

/-! ## The environment (60_exceptions.md R121) -/

/-- Ask the environment for an operation: it fails when ENV_FAIL says so, and then the state stays as the
sub-steps before left it. -/
def askEnv {α : Type} (call : EnvCall) (s : State) (answer : Micro α) : Micro α :=
  if call ∈ s.env.failing then .fault (.envFail call s) else answer

/-- `MemRead(a, 1)` (20_memory.md R33); holes fail and devices are refused (log entries 6, 8). -/
def readMem (a : Word) (s : State) : Micro Byte :=
  askEnv (.memRead a) s <|
    match regionKind s.env.memMap a with
    | .ram => .ok (s.byteAt a) s
    | .rom => .ok (s.byteAt a) s
    | .hole => .fault (.envFail (.memRead a) s)
    | .device => .refuse (.deviceAccess (.memRead a))

/-- `MemWrite(a, 1, v)` (20_memory.md R33); ROM accepts a write and keeps its byte (R32, log entry 7). -/
def writeMem (a : Word) (v : Byte) (s : State) : Micro Unit :=
  askEnv (.memWrite a) s <|
    match regionKind s.env.memMap a with
    | .ram => .ok () (s.storeByte a v)
    | .rom => .ok () s
    | .hole => .fault (.envFail (.memWrite a) s)
    | .device => .refuse (.deviceAccess (.memWrite a))

/-- `MemRead(a, 2)` (20_memory.md R34): the low byte first. -/
def readMem16 (a : Word) (s : State) : Micro Word :=
  (readMem a s).bind fun lo s =>
  (readMem (a + 1#16) s).bind fun hi s =>
  .ok (hi ++ lo) s

/-- `MemWrite(a, 2, v)` (20_memory.md R35): the byte at the higher address first. -/
def writeMem16 (a : Word) (v : Word) (s : State) : Micro Unit :=
  (writeMem (a + 1#16) (v.extractLsb' 8 8) s).bind fun _ s =>
  writeMem a (v.extractLsb' 0 8) s

/-- `get8(CNT_ID)` (10_state.md R16). -/
def readCount (s : State) : Micro Byte := askEnv .get8 s (.ok s.b s)

/-- `set8(CNT_ID)` (10_state.md R16). -/
def writeCount (n : Byte) (s : State) : Micro Unit := askEnv .set8 s (.ok () (s.setB n))

/-- `index_value()` with the register the decoder has selected (10_state.md R20). -/
def indexValue (x : IndexReg) (s : State) : Micro Word := askEnv .indexValue s (.ok (s.index x) s)

/-! ## The program-counter ALU and the branch address calculator -/

/-- `sext_16` (00_scope.md section 6.1, 30_encoding.md R56). -/
def sext16 (d : Byte) : Word := d.signExtend 16

/-- `zext_16` (00_scope.md section 6.1, 30_encoding.md R58). -/
def zext16 (v : Byte) : Word := v.zeroExtend 16

/-- The load of `PC` (40_pc_alu_relative.md R72). -/
def loadPc (v : Word) (s : State) : Micro Unit := .ok () (s.setPc v)

/-- `RelJump(ofs)` (40_pc_alu_relative.md R73). -/
def relJump (ofs : Byte) (s : State) : Micro Unit := .ok () (s.setPc (s.pc + sext16 ofs))

/-! ## The linkage unit -/

/-- `Push16(v)` (43_linkage.md R95): high byte, low byte, then `SP`. -/
def push16 (v : Word) (s : State) : Micro Unit :=
  (writeMem16 (s.sp - 2#16) v s).bind fun _ s => .ok () (s.setSp (s.sp - 2#16))

/-- `Pop16()` (43_linkage.md R96): low byte, high byte, then `SP`. -/
def pop16 (s : State) : Micro Word :=
  (readMem16 s.sp s).bind fun v s => .ok v (s.setSp (s.sp + 2#16))

/-- `SubCall(addr)` (43_linkage.md R97): the return address is captured and pushed, then `PC` loaded. -/
def subCall (addr : Word) (s : State) : Micro Unit :=
  (push16 s.pc s).bind fun _ s => loadPc addr s

/-- `SubReturn()` (43_linkage.md R98). -/
def subReturn (s : State) : Micro Unit :=
  (pop16 s).bind fun ra s => loadPc ra s

/-- `EndNmi()` (43_linkage.md R99). -/
def endNmi (s : State) : Micro Unit := askEnv .endNmi s (.ok () (s.setInNmi false))

/-- The vectored call of `RST v`, the only trap-like entry of the CTD (60_exceptions.md R125). -/
def vectoredCall (v : Byte) (s : State) : Micro Unit := subCall (zext16 v) s

/-- Entry to a maskable-interrupt handler by the acceptance logic outside the CTD: a return address in
the format of `Push16`, and control at the handler (60_exceptions.md R126; log entry 17). -/
def interruptEntry (handler : Word) (s : State) : Micro Unit := subCall handler s

/-- Entry to the non-maskable-interrupt handler: the same, and `IN_NMI` set (R126 (c), R127). -/
def nmiEntry (handler : Word) (s : State) : Micro Unit :=
  (subCall handler s).bind fun _ s => .ok () (s.setInNmi true)

/-- The return from a non-maskable interrupt: pop and load of `PC` first, then the flag (43_linkage.md
R104, 60_exceptions.md R128, R130). -/
def nmiReturn (s : State) : Micro Unit :=
  (subReturn s).bind fun _ s => endNmi s

/-! ## Decrement and branch -/

/-- The unsigned 8-bit decrement with wrap-around (44_djnz.md R111). -/
def decrement8 (n : Byte) : Byte := n - 1#8

end Sys2Proof.Machine
end

