-- ==== Sys2Proof/Machine/Flags.lean ====
section
/-!
DEFINITION. The conditional-branch evaluator. No operation of the CTD computes or writes a flag
(10_state.md R19), so the reads are all there is.
-/

namespace Sys2Proof.Machine

/-- `get_flag` (10_state.md R18). -/
def readFlag (f : Flag) (s : State) : Micro Bool := askEnv (.getFlag f) s (.ok (s.flags.get f) s)

/-- The condition as a fact about the flags: the flag equals the expected value (42_conditional.md R86). -/
def condHolds (cc : Cond) (fl : Flags) : Bool := fl.get cc.flag == cc.expected

/-- `CondTrue(cc)` (42_conditional.md R86): one flag is read. -/
def condTrue (cc : Cond) (s : State) : Micro Bool :=
  (readFlag cc.flag s).bind fun f s => .ok (f == cc.expected) s

/-- Steps 2 and 3 of the protocol of R85, after the operands: evaluate, then the effect or nothing. -/
def whenCond (cc : Cond) (effect : State → Micro Unit) (s : State) : Micro Unit :=
  (condTrue cc s).bind fun t s => if t then effect s else .ok () s

end Sys2Proof.Machine
end

