-- ==== Sys2Proof/Machine/Operands.lean ====
section
/-!
DEFINITION. The operand forms: the bytes an operation fetches from the instruction stream at `PC`
(30_encoding.md R55), and the register operand of the index jump.
-/

namespace Sys2Proof.Machine

/-- `FetchByte()` (40_pc_alu_relative.md R70). -/
def fetchByte (s : State) : Micro Byte :=
  (readMem s.pc s).bind fun b s => .ok b (s.setPc (s.pc + 1#16))

/-- `FetchWord()` (40_pc_alu_relative.md R71): `PC` moves after both reads. -/
def fetchWord (s : State) : Micro Word :=
  (readMem16 s.pc s).bind fun v s => .ok v (s.setPc (s.pc + 2#16))

/-- The jump of `JP (idx)`: `PC <- IDX` (41_jumps.md R81). -/
def indexedJump (x : IndexReg) (s : State) : Micro Unit :=
  (indexValue x s).bind fun v s => loadPc v s

end Sys2Proof.Machine
end

