-- ==== Sys2Proof/Machine/Jumps.lean ====
section
/-!
DEFINITION. The absolute and indirect jumps: `JP nn`, `JP cc, nn`, `JP (HL)`, `JP (IX)`, `JP (IY)`.
-/

namespace Sys2Proof.Machine

/-- `JP nn` (41_jumps.md R80). -/
def execJp (s : State) : Host.Outcome State Fault Refusal :=
  ((fetchWord s).bind fun imm s => loadPc imm s).outcome

/-- `JP cc, nn` (42_conditional.md R88). -/
def execJpCc (cc : Cond) (s : State) : Host.Outcome State Fault Refusal :=
  ((fetchWord s).bind fun imm s => whenCond cc (loadPc imm) s).outcome

/-- `JP (HL)` (41_jumps.md R81). -/
def execJpHl (s : State) : Host.Outcome State Fault Refusal := (indexedJump .hl s).outcome

/-- `JP (IX)` (41_jumps.md R81). -/
def execJpIx (s : State) : Host.Outcome State Fault Refusal := (indexedJump .ix s).outcome

/-- `JP (IY)` (41_jumps.md R81). -/
def execJpIy (s : State) : Host.Outcome State Fault Refusal := (indexedJump .iy s).outcome

end Sys2Proof.Machine
end

