-- ==== Sys2Proof/Machine/Linkage.lean ====
section
/-!
DEFINITION. Calls and returns: `CALL nn`, `CALL cc, nn`, `RST v`, `RET`, `RET cc`, `RETI`, `RETN`.
-/

namespace Sys2Proof.Machine

/-- `CALL nn` (43_linkage.md R100). -/
def execCall (s : State) : Host.Outcome State Fault Refusal :=
  ((fetchWord s).bind fun imm s => subCall imm s).outcome

/-- `CALL cc, nn` (42_conditional.md R89). -/
def execCallCc (cc : Cond) (s : State) : Host.Outcome State Fault Refusal :=
  ((fetchWord s).bind fun imm s => whenCond cc (subCall imm) s).outcome

/-- `RST v` (43_linkage.md R101). -/
def execRst (v : Byte) (s : State) : Host.Outcome State Fault Refusal := (vectoredCall v s).outcome

/-- `RET` (43_linkage.md R102). -/
def execRet (s : State) : Host.Outcome State Fault Refusal := (subReturn s).outcome

/-- `RET cc` (42_conditional.md R90). -/
def execRetCc (cc : Cond) (s : State) : Host.Outcome State Fault Refusal :=
  (whenCond cc subReturn s).outcome

/-- `RETI` (43_linkage.md R103): the signal to the surrounding system changes no state of the CTD (R129;
log entry 18). -/
def execReti (s : State) : Host.Outcome State Fault Refusal := (subReturn s).outcome

/-- `RETN` (43_linkage.md R104): no interrupt-enable state is written (60_exceptions.md R130). -/
def execRetn (s : State) : Host.Outcome State Fault Refusal := (nmiReturn s).outcome

end Sys2Proof.Machine
end

