-- ==== Sys2Proof/Machine/Relative.lean ====
section
/-!
DEFINITION. The relative transfers: `JR d`, `JR cc, d`, `DJNZ d`.
-/

namespace Sys2Proof.Machine

/-- `JR d` (40_pc_alu_relative.md R75). -/
def execJr (s : State) : Host.Outcome State Fault Refusal :=
  ((fetchByte s).bind fun ofs s => relJump ofs s).outcome

/-- `JR cc, d` (42_conditional.md R87). -/
def execJrCc (cc : Cond) (s : State) : Host.Outcome State Fault Refusal :=
  ((fetchByte s).bind fun ofs s => whenCond cc (relJump ofs) s).outcome

/-- `DJNZ d` (44_djnz.md R110). -/
def execDjnz (s : State) : Host.Outcome State Fault Refusal :=
  ((fetchByte s).bind fun ofs s =>
   (readCount s).bind fun c s =>
   (writeCount (decrement8 c) s).bind fun _ s =>
   if decrement8 c = 0#8 then .ok () s else relJump ofs s).outcome

end Sys2Proof.Machine
end

