-- ==== Sys2Proof/Machine/Dispatch.lean ====
section
/-!
DEFINITION. The dispatch: one arm per constructor of Instr.
-/

namespace Sys2Proof.Machine

-- exec runs one operation of the CTD from PC_in (00_scope.md R1, R6).
def exec (i : Instr) (s : State) : Host.Outcome State Fault Refusal :=
  match i with
  | .djnz => Sys2Proof.Machine.execDjnz s
  | .jr => Sys2Proof.Machine.execJr s
  | .jrCc cc => Sys2Proof.Machine.execJrCc cc s
  | .retCc cc => Sys2Proof.Machine.execRetCc cc s
  | .jpCc cc => Sys2Proof.Machine.execJpCc cc s
  | .jp => Sys2Proof.Machine.execJp s
  | .callCc cc => Sys2Proof.Machine.execCallCc cc s
  | .rst v => Sys2Proof.Machine.execRst v s
  | .ret => Sys2Proof.Machine.execRet s
  | .call => Sys2Proof.Machine.execCall s
  | .jpHl => Sys2Proof.Machine.execJpHl s
  | .jpIx => Sys2Proof.Machine.execJpIx s
  | .jpIy => Sys2Proof.Machine.execJpIy s
  | .retn => Sys2Proof.Machine.execRetn s
  | .reti => Sys2Proof.Machine.execReti s

end Sys2Proof.Machine
end

