-- ==== Sys2Proof/Machine/Fetch.lean ====
section
/-!
DEFINITION. The opcode fetch of the external fetch-decode loop (00_scope.md R6, D1): bytes are fetched
with `advance_pc` semantics, prefixes included, until the decoder has an operation.
-/

namespace Sys2Proof.Machine

/-- Fetch opcode bytes after those already seen, at most `fuel` of them. A failing read is handed on with
`PC` past the bytes fetched before it (log entry 13). -/
def fetchOpcodeAfter : Nat → List Byte → State → Micro Instr
  | 0, _, _ => .refuse .endlessPrefixes
  | fuel + 1, seen, s =>
    (fetchByte s).bind fun b s =>
    match decode (seen ++ [b]) with
    | .op i _ => .ok i s
    | .needMore => fetchOpcodeAfter fuel (seen ++ [b]) s
    | .reject r => .refuse (.undecoded r)

/-- The whole opcode fetch: the operation, and the state with `PC = PC_in`. -/
def fetchOpcode (s : State) : Micro Instr := fetchOpcodeAfter Config.fetchLimit [] s

/-- The bytes stored one after the other from an address on, the address wrapping. -/
def storeBytes (s : State) (a : Word) : List Byte → State
  | [] => s
  | b :: rest => storeBytes (s.storeByte a b) (a + 1#16) rest

end Sys2Proof.Machine
end

