-- ==== Sys2Proof/Machine/Step.lean ====
section
/-!
DEFINITION. One step: the external loop fetches and decodes the opcode byte(s), then the operation runs
to completion (00_scope.md R1, R2, R6). No interrupt is taken inside a step (60_exceptions.md R123, R124).
-/

namespace Sys2Proof.Machine

/-- The operation a fetch has found, run from `PC_in`; a stop of the fetch is handed on. -/
def step (s : State) : Host.Outcome State Fault Refusal :=
  match fetchOpcode s with
  | .ok i s' => exec i s'
  | .fault r => .fault r
  | .refuse r => .refused r

/-- `s` with an instruction, numbered as spec/opcode_table.json does, stored at `PC` (log entry 2). -/
def State.withFetchWord (s : State) (nbits w : Nat) : State := storeBytes s s.pc (tableBytes nbits w)

end Sys2Proof.Machine
end

