-- ==== Sys2Proof/Machine/Names.lean ====
section
/-!
DEFINITION. The display name of each operation, "consumed by an external trace/disassembly collaborator"
(30_encoding.md R59, R60; 60_exceptions.md R133). No meaning reads a name (R51).
-/

namespace Sys2Proof.Machine

/-- One lowercase hex digit. -/
def hexDigit (n : Nat) : Char := if n < 10 then Char.ofNat (48 + n) else Char.ofNat (87 + n)

/-- Two lowercase hex digits (R59). -/
def hexByte (v : Byte) : String := String.ofList [hexDigit (v.toNat / 16), hexDigit (v.toNat % 16)]

/-- The mnemonic of a condition descriptor (R53). -/
def condName (cc : Cond) : String :=
  match cc.flag, cc.expected with
  | .z, false => "NZ"
  | .z, true => "Z"
  | .c, false => "NC"
  | .c, true => "C"
  | .pv, false => "PO"
  | .pv, true => "PE"
  | .s, false => "P"
  | .s, true => "M"

/-- The display names of R60. NAME_JP_IDX is open; R60's string is taken (log entry 19). -/
def displayName : Instr → String
  | .djnz => "DJNZ d"
  | .jr => "JR d"
  | .jrCc cc => "JR " ++ condName cc ++ ", d"
  | .retCc cc => "RET " ++ condName cc
  | .jpCc cc => "JP " ++ condName cc ++ ", nn"
  | .jp => "JP nn"
  | .callCc cc => "CALL " ++ condName cc ++ ", nn"
  | .rst v => "RST " ++ hexByte v ++ "h"
  | .ret => "RET"
  | .call => "CALL nn"
  | .jpHl => "JP (idx)"
  | .jpIx => "JP (idx)"
  | .jpIy => "JP (idx)"
  | .retn => "RETN"
  | .reti => "RETI"

/-- The name of an index register. -/
def indexName : IndexReg → String
  | .hl => "HL"
  | .ix => "IX"
  | .iy => "IY"

/-- A tracer's name, which may substitute the current index register's name (R60). -/
def tracerName : Instr → String
  | .djnz => displayName .djnz
  | .jr => displayName .jr
  | .jrCc cc => displayName (.jrCc cc)
  | .retCc cc => displayName (.retCc cc)
  | .jpCc cc => displayName (.jpCc cc)
  | .jp => displayName .jp
  | .callCc cc => displayName (.callCc cc)
  | .rst v => displayName (.rst v)
  | .ret => displayName .ret
  | .call => displayName .call
  | .jpHl => "JP (" ++ indexName .hl ++ ")"
  | .jpIx => "JP (" ++ indexName .ix ++ ")"
  | .jpIy => "JP (" ++ indexName .iy ++ ")"
  | .retn => displayName .retn
  | .reti => displayName .reti

end Sys2Proof.Machine
end

