-- ==== Sys2Proof/Machine/Outside.lean ====
section
/-!
DEFINITION. What acts on the CTD from outside, at operation boundaries only (70_reset_and_hazards.md
R150, 60_exceptions.md R124). `step` takes no such event by itself: IRQ_ENTRY is open and its default is
that no interrupt is taken (D18; log entry 17).
-/

namespace Sys2Proof.Machine

/-- An event at an operation boundary. -/
inductive Outside where
  /-- A maskable interrupt is accepted; the acceptance logic gives the handler's address (R126). -/
  | interrupt (handler : Word)
  /-- A non-maskable interrupt is accepted (R126 (c)). -/
  | nmi (handler : Word)
  /-- Reset (R140, R141), with the values RESET_SP, RESET_B, RESET_FLAGS, RESET_IDX. -/
  | reset (p : ResetParams)
  /-- An instruction that is no control transfer leaves the registers and memory of `after`; it cannot
  write `IN_NMI` (R150; log entry 21). -/
  | otherInstruction (after : State)
  deriving DecidableEq, Repr

/-- What the registers that reset does not write hold in a state, as reset parameters: with them a reset
writes `PC` and `IN_NMI` alone (R140). -/
def State.resetParams (s : State) : ResetParams :=
  { sp := s.sp, b := s.b, flags := s.flags, hl := s.hl, ix := s.ix, iy := s.iy }

/-- Reset at an operation boundary: memory and the environment stay (R140, R141; log entry 25). -/
def resetTo (p : ResetParams) (s : State) : State := State.launch p s.mem s.env

/-- The state after an outside event. -/
def Outside.apply (e : Outside) (s : State) : Micro Unit :=
  match e with
  | .interrupt handler => interruptEntry handler s
  | .nmi handler => nmiEntry handler s
  | .reset p => .ok () (resetTo p s)
  | .otherInstruction after => .ok () { after with inNmi := s.inNmi, env := s.env }

/-- One step of the CTD in its surroundings: an outside event at the boundary, or the next operation. -/
def systemStep (e : Option Outside) (s : State) : Host.Outcome State Fault Refusal :=
  match e with
  | some ev => (ev.apply s).outcome
  | none => step s

/-- A sequence of boundaries, stopping at the first fault or refusal. -/
def systemRun : List (Option Outside) → State → Host.Outcome State Fault Refusal
  | [], s => .next s
  | e :: more, s =>
    match systemStep e s with
    | .next s' => systemRun more s'
    | .fault r => .fault r
    | .refused r => .refused r

end Sys2Proof.Machine
end

