-- ==== Sys2Proof/Machine/Run.lean ====
section
/-!
DEFINITION. The end of a run (70_reset_and_hazards.md R148): the CTD never stops by itself, the external
loop stops invoking operations at a boundary, as the parameter `RUN_END` says.
-/

namespace Sys2Proof.Machine

/-- `RUN_END` (D21). -/
inductive RunEnd where
  /-- The run is over after `n` operations. -/
  | count (n : Nat)
  /-- The run is over at the first operation boundary at which `PC` equals the address. -/
  | stopAt (a : Word)
  deriving DecidableEq, Repr

/-- Run until `PC` equals the stop address, at most `fuel` operations; `none` when the fuel is used up
first (the loop would still be driving the CTD). -/
def runUntil (a : Word) : Nat → State → Option (Host.Outcome State Fault Refusal)
  | 0, s => if s.pc = a then some (.next s) else none
  | fuel + 1, s =>
    if s.pc = a then some (.next s)
    else
      match step s with
      | .next s' => runUntil a fuel s'
      | .fault r => some (.fault r)
      | .refused r => some (.refused r)

/-- A run with its end given at the launch. -/
def runTo (e : RunEnd) (fuel : Nat) (s : State) : Option (Host.Outcome State Fault Refusal) :=
  match e with
  | .count n => some (Sys2Proof.core.run n s)
  | .stopAt a => runUntil a fuel s

end Sys2Proof.Machine
end

