-- ==== Sys2Proof/Machine/Select.lean ====
section
/-!
DEFINITION. The CTD at its own interface: the decoder presents the select word `CMD` and, for the index
jump, has resolved the index register (30_encoding.md R52, 70_reset_and_hazards.md R150).
-/

namespace Sys2Proof.Machine

/-- Start the operation that `CMD` selects, with `PC = PC_in`. The reserved kinds are refused (R61). -/
def startOperation (cmd : BitVec 15) (current : IndexReg) (s : State) : Host.Outcome State Fault Refusal :=
  match decodeCmd cmd current with
  | some i => exec i s
  | none => .refused (.reservedKind (cmdKind cmd))

end Sys2Proof.Machine
end

