-- ==== Sys2Proof/Safety.lean ====
section
/-!
DEFINITION. The terms the claims use: the invariant of the state, the environment in which the spec says
an operation always succeeds, what a call leaves, the frames, and a safe run.
-/

namespace Sys2Proof.Machine

/-- The invariant: memory is in its canonical form, so every listed address is in the space. -/
abbrev State.Inv (s : State) : Prop := s.mem.wf = true

/-- The default environment: "with the memory of 20_memory.md rule R32 and a register file that always
answers" no environment operation fails (60_exceptions.md R121). -/
abbrev State.Plain (s : State) : Prop := s.env = Env.default

/-- Exactly one environment operation fails, and memory is RAM everywhere. -/
abbrev State.FailsOnly (s : State) (call : EnvCall) : Prop := s.env = ⟨[call], []⟩

/-- In every state in which one environment operation alone fails, the operation `i` stops there: the failure
is handed on, and the state left is the one given (60_exceptions.md R121, R122). -/
def StopsAt (i : Instr) (call : State → EnvCall) (left : State → State) (when : State → Prop) : Prop :=
  ∀ s : State, s.FailsOnly (call s) → when s → exec i s = .fault (.envFail (call s) (left s))

/-- Every byte of memory reads as before, but for the addresses given. -/
def SameBytesExcept (addresses : List Word) (s t : State) : Prop :=
  ∀ a : Word, a ∉ addresses → t.byteAt a = s.byteAt a

/-- The registers that only instructions outside the CTD write, and the environment, are as before: the
four flags (10_state.md R19), the index registers (R20), and the model's own field. -/
def SameOutsideCtd (s t : State) : Prop :=
  t.flags = s.flags ∧ t.hl = s.hl ∧ t.ix = s.ix ∧ t.iy = s.iy ∧ t.env = s.env

/-- `t` is what a call from `s` leaves that pushed `ra` and went to `target` (43_linkage.md R95, R97): the
word lies little-endian below the old `SP`, and nothing else has changed. -/
def CalledFrom (s : State) (ra target : Word) (t : State) : Prop :=
  t.pc = target ∧ t.sp = s.sp - 2#16 ∧
  t.byteAt (s.sp - 1#16) = ra.extractLsb' 8 8 ∧ t.byteAt (s.sp - 2#16) = ra.extractLsb' 0 8 ∧
  SameBytesExcept [s.sp - 2#16, s.sp - 1#16] s t ∧ t.b = s.b ∧ t.inNmi = s.inNmi ∧ SameOutsideCtd s t

/-- The opcode bytes `bytes` lie in memory from an address on, the address wrapping. -/
def BytesAt (s : State) (a : Word) : List Byte → Prop
  | [] => True
  | b :: rest => s.byteAt a = b ∧ BytesAt s (a + 1#16) rest

/-- No fault and no refusal within `n` steps. -/
def SafeRun (n : Nat) (s : State) : Prop := ∀ k ≤ n, ∃ t, Sys2Proof.core.run k s = .next t

end Sys2Proof.Machine
end

