-- ==== Sys2Proof/Certificates/Slice0/Obligations.lean ====
section
/-!
DEFINITION. The statements for the provers, each a Prop over the model; OBLIGATIONS.json lists them.
Statements in the default environment say `Plain` (60_exceptions.md R121); statements that read a stored
byte back say `Inv`, which `StepKeepsMemoryCanonical` keeps.
-/

open Sys2Proof Sys2Proof.Machine

/-! ## Encoding -/

/-- Decoding an encoded well-formed instruction gives it back, with every operand, and leaves what follows
(30_encoding.md R55, R57, R62). -/
def Obligations.DecodeOfEncodeGivesInstructionBack : Prop :=
  ∀ (i : Instr) (o : Operand) (rest : List Byte), i.wellFormed = true → o.fits i.format = true →
    decodeWhole (encodeWhole i o ++ rest) = some (i, o, rest)

/-- Whatever bytes are decoded, the operation found has instruction bytes, and the bytes are an opcode that
decodes to the operation alone, followed by those handed on (30_encoding.md R62, 90_conflicts.md C6). -/
def Obligations.DecodedOperationsAreWellFormed : Prop :=
  ∀ (bytes rest : List Byte) (i : Instr), decode bytes = .op i rest →
    i.wellFormed = true ∧ ∃ opcode : List Byte, opcode ≠ [] ∧ decode opcode = .op i [] ∧ bytes = opcode ++ rest

/-- Index prefixes select the index register of the jump and leave every other instruction as it is; the
last one counts (30_encoding.md R63; DEDUCED, log entry 10). -/
def Obligations.IndexPrefixesSelectOnlyTheJumpRegister : Prop :=
  ∀ pre rest : List Byte, (∀ p ∈ pre, p = 0xDD ∨ p = 0xFD) →
    decode (pre ++ 0xDD :: 0xE9 :: rest) = .op .jpIx rest ∧
    decode (pre ++ 0xFD :: 0xE9 :: rest) = .op .jpIy rest ∧
    ∀ i : Instr, i.wellFormed = true → i ≠ .jpHl → decode (pre ++ encode i ++ rest) = .op i rest

/-- Words written out from 30_encoding.md R62 decode to the instructions they stand for. -/
def Obligations.WrittenOutWordsDecode : Prop :=
  decodeWhole [0x10, 0xFD] = some (.djnz, .disp 0xFD, []) ∧
  decodeWhole [0x28, 0xFA] = some (.jrCc ⟨.z, true⟩, .disp 0xFA, []) ∧
  decodeWhole [0xC3, 0x34, 0x12] = some (.jp, .addr 0x1234, []) ∧
  decodeWhole [0xFC, 0x00, 0x20] = some (.callCc ⟨.s, true⟩, .addr 0x2000, []) ∧
  decodeWhole [0xDF] = some (.rst 0x18, .absent, []) ∧
  decodeWhole [0xE0] = some (.retCc ⟨.pv, false⟩, .absent, []) ∧
  decodeWhole [0xFD, 0xE9] = some (.jpIy, .absent, []) ∧
  decodeWhole [0xED, 0x45] = some (.retn, .absent, []) ∧
  decodeWhole [0xED, 0x4D] = some (.reti, .absent, [])

/-- The undocumented duplicates on the page `0xED` are `RETN` (30_encoding.md R63; the model's choice to
take them is log entry 11). -/
def Obligations.DuplicateReturnBytesAreRetn : Prop :=
  ∀ b ∈ ([0x55, 0x65, 0x75, 0x5D, 0x6D, 0x7D] : List Byte), ∀ rest : List Byte,
    decode (0xED :: b :: rest) = .op .retn rest

/-- The eight condition descriptors: code, flag, expected value, mnemonic; and every one of them with every
conditional kind (30_encoding.md R53). -/
def Obligations.EightConditionDescriptors : Prop :=
  Cond.ofCode 0b000 = ⟨.z, false⟩ ∧ Cond.ofCode 0b001 = ⟨.z, true⟩ ∧
  Cond.ofCode 0b010 = ⟨.c, false⟩ ∧ Cond.ofCode 0b011 = ⟨.c, true⟩ ∧
  Cond.ofCode 0b100 = ⟨.pv, false⟩ ∧ Cond.ofCode 0b101 = ⟨.pv, true⟩ ∧
  Cond.ofCode 0b110 = ⟨.s, false⟩ ∧ Cond.ofCode 0b111 = ⟨.s, true⟩ ∧
  [0, 1, 2, 3, 4, 5, 6, 7].map (fun k => condName (Cond.ofCode (BitVec.ofNat 3 k))) =
    ["NZ", "Z", "NC", "C", "PO", "PE", "P", "M"] ∧
  ∀ (cc : Cond) (v : Byte) (x : IndexReg),
    decodeCmd (mkCmd 1 cc.code v) x = some (.jrCc cc) ∧
    decodeCmd (mkCmd 3 cc.code v) x = some (.jpCc cc) ∧
    decodeCmd (mkCmd 6 cc.code v) x = some (.callCc cc) ∧
    decodeCmd (mkCmd 9 cc.code v) x = some (.retCc cc)

/-- The select word of an operation starts that operation (30_encoding.md R52). -/
def Obligations.SelectWordStartsItsOperation : Prop :=
  ∀ (i : Instr) (s : State), startOperation (encodeCmd i) i.selectedIndex s = exec i s

/-- Reserved kinds are refused, whatever the other fields hold, and fields that an operation does not read
are ignored (30_encoding.md R52, R61). -/
def Obligations.ReservedKindsRefusedUnreadFieldsIgnored : Prop :=
  (∀ (cmd : BitVec 15) (x : IndexReg) (s : State), 13 ≤ (cmdKind cmd).toNat →
    startOperation cmd x s = .refused (.reservedKind (cmdKind cmd))) ∧
  (∀ (kind : BitVec 4) (cc cc' : BitVec 3) (v v' : Byte) (x : IndexReg) (s : State),
    (kind ∈ ([1, 3, 6, 9] : List (BitVec 4)) → cc = cc') → (kind = 7 → v = v') →
    startOperation (mkCmd kind cc v) x s = startOperation (mkCmd kind cc' v') x s)

/-! ## The step -/

/-- A step runs the operation that the opcode bytes at `PC` decode to, from `PC_in`, the address after them
(00_scope.md R1; R6, which the spec marks derived). That a step of the model is one turn of the external loop and
one operation is the model's reading, log entry 1; the bound on the opcode bytes is log entry 14. -/
def Obligations.StepRunsDecodedOperation : Prop :=
  ∀ (s : State) (bytes : List Byte) (i : Instr), s.Plain → bytes.length ≤ Config.fetchLimit →
    decode bytes = .op i [] → BytesAt s s.pc bytes →
    step s = exec i (s.setPc (s.pc + BitVec.ofNat 16 bytes.length))

/-- In any environment, a step that answers a next state has run one operation, decoded from the bytes at
`PC`, from the address after them (00_scope.md R1; R6, which the spec marks derived). What a step consists of is
the model's reading, log entry 1. -/
def Obligations.CompletedStepIsOneOperation : Prop :=
  ∀ s t : State, step s = .next t →
    ∃ (bytes : List Byte) (i : Instr), decode bytes = .op i [] ∧ BytesAt s s.pc bytes ∧
      exec i (s.setPc (s.pc + BitVec.ofNat 16 bytes.length)) = .next t

/-- Bytes that are no control transfer are refused by name (00_scope.md section 3.2; the model's choice, log entry
12): a step refuses whatever the decoder rejects, and the decoder rejects, after any index prefixes (log entry 10),
every first byte and every byte after `0xED` outside the lists of 30_encoding.md R62 and R63. What a step fetches is
log entry 1, the bound on the bytes log entry 14. -/
def Obligations.StepRefusesOtherInstructions : Prop :=
  (∀ (s : State) (bytes : List Byte) (r : Reject), s.Plain → bytes.length ≤ Config.fetchLimit →
    decode bytes = .reject r → BytesAt s s.pc bytes → step s = .refused (.undecoded r)) ∧
  (∀ (pre rest : List Byte) (b : Byte), (∀ p ∈ pre, p = 0xDD ∨ p = 0xFD) →
    b ∉ ([0x10, 0x18, 0x20, 0x28, 0x30, 0x38, 0xC0, 0xC8, 0xD0, 0xD8, 0xE0, 0xE8, 0xF0, 0xF8, 0xC2, 0xCA, 0xD2,
        0xDA, 0xE2, 0xEA, 0xF2, 0xFA, 0xC3, 0xC4, 0xCC, 0xD4, 0xDC, 0xE4, 0xEC, 0xF4, 0xFC, 0xC7, 0xCF, 0xD7, 0xDF,
        0xE7, 0xEF, 0xF7, 0xFF, 0xC9, 0xCD, 0xE9, 0xDD, 0xFD, 0xED] : List Byte) →
    decode (pre ++ b :: rest) = .reject (.notControlTransfer b)) ∧
  (∀ (pre rest : List Byte) (b : Byte), (∀ p ∈ pre, p = 0xDD ∨ p = 0xFD) →
    b ∉ ([0x45, 0x4D, 0x55, 0x5D, 0x65, 0x6D, 0x75, 0x7D] : List Byte) →
    decode (pre ++ 0xED :: b :: rest) = .reject (.notControlTransferEd b))

/-! ## Address arithmetic and conditions -/

/-- The arithmetic law of the branch address calculator: the three equivalent forms of
40_pc_alu_relative.md R74. -/
def Obligations.RelativeJumpAddsSignedDisplacement : Prop :=
  ∀ (s : State) (d : Byte), ∃ t, relJump d s = .ok () t ∧ t = s.setPc t.pc ∧
    t.pc.toNat = (s.pc.toNat + (sext16 d).toNat) % 65536 ∧
    ((sext16 d).toNat ≤ 0x007F ∨ (0xFF80 ≤ (sext16 d).toNat ∧ (sext16 d).toNat ≤ 0xFFFF)) ∧
    (t.pc.toNat : Int) =
      ((s.pc.toNat : Int) + (if d.toNat < 128 then (d.toNat : Int) else (d.toNat : Int) - 256)) % 65536 ∧
    (d.toNat < 128 → t.pc.toNat = (s.pc.toNat + d.toNat) % 65536) ∧
    (128 ≤ d.toNat → t.pc.toNat = (s.pc.toNat + d.toNat + 65280) % 65536)

/-- A relative transfer reaches one of 256 addresses, and `JR` reaches each of them (40_pc_alu_relative.md R76,
which the spec marks "derived: from rules R74 and R75"). -/
def Obligations.RelativeTransferReach : Prop :=
  (∀ (i : Instr) (s t : State), (i = .jr ∨ i = .djnz ∨ ∃ cc, i = .jrCc cc) → exec i s = .next t →
    ∃ k < 256, t.pc = s.pc + 1#16 - 128#16 + BitVec.ofNat 16 k) ∧
  (∀ (s : State) (k : Nat), s.Plain → s.Inv → k < 256 →
    ∃ d t, exec .jr (s.storeByte s.pc d) = .next t ∧ t.pc = s.pc + 1#16 - 128#16 + BitVec.ofNat 16 k)

/-- `CondTrue`: its truth table, that it reads one flag and changes nothing, that it is the equality with the
expected value, and that the two polarities of a flag are complements (42_conditional.md R86). -/
def Obligations.CondTrueTruthTable : Prop :=
  (∀ s : State, s.Plain →
    condTrue ⟨.z, false⟩ s = .ok (!s.flags.z) s ∧ condTrue ⟨.z, true⟩ s = .ok s.flags.z s ∧
    condTrue ⟨.c, false⟩ s = .ok (!s.flags.c) s ∧ condTrue ⟨.c, true⟩ s = .ok s.flags.c s ∧
    condTrue ⟨.pv, false⟩ s = .ok (!s.flags.pv) s ∧ condTrue ⟨.pv, true⟩ s = .ok s.flags.pv s ∧
    condTrue ⟨.s, false⟩ s = .ok (!s.flags.s) s ∧ condTrue ⟨.s, true⟩ s = .ok s.flags.s s ∧
    ∀ cc, condTrue cc s = .ok (condHolds cc s.flags) s) ∧
  (∀ (cc : Cond) (fl fl' : Flags), fl.get cc.flag = fl'.get cc.flag → condHolds cc fl = condHolds cc fl') ∧
  (∀ (f : Flag) (fl : Flags), condHolds ⟨f, true⟩ fl = !condHolds ⟨f, false⟩ fl)

/-! ## What each instruction does -/

/-- `JR d` (40_pc_alu_relative.md R75, a rule the spec marks "derived: from rules R70 and R73 and 42_conditional.md
rule R87"). -/
def Obligations.JrJumpsRelativeToNextInstruction : Prop :=
  (∀ s : State, s.Plain → exec .jr s = .next (s.setPc (s.pc + 1#16 + sext16 (s.byteAt s.pc)))) ∧
  StopsAt .jr (fun s => .memRead s.pc) id (fun _ => True) ∧
  (∀ x, decodeCmd (mkCmd 0 0 0) x = some .jr) ∧ decode [0x18] = .op .jr []

/-- `JR cc, d` (42_conditional.md R87). -/
def Obligations.JrCcJumpsWhenConditionHolds : Prop :=
  (∀ (cc : Cond) (s : State), s.Plain →
    exec (.jrCc cc) s = .next (s.setPc
      (if condHolds cc s.flags then s.pc + 1#16 + sext16 (s.byteAt s.pc) else s.pc + 1#16))) ∧
  (∀ cc : Cond, StopsAt (.jrCc cc) (fun s => .memRead s.pc) id (fun _ => True) ∧
    StopsAt (.jrCc cc) (fun _ => .getFlag cc.flag) (fun s => s.setPc (s.pc + 1#16)) (fun _ => True)) ∧
  (∀ (cc : Cond) (x : IndexReg), decodeCmd (mkCmd 1 cc.code 0) x = some (.jrCc cc)) ∧
  decode [0x20] = .op (.jrCc ⟨.z, false⟩) [] ∧ decode [0x28] = .op (.jrCc ⟨.z, true⟩) [] ∧
  decode [0x30] = .op (.jrCc ⟨.c, false⟩) [] ∧ decode [0x38] = .op (.jrCc ⟨.c, true⟩) [] ∧
  (∀ (b : Byte) (cc : Cond), decode [b] = .op (.jrCc cc) [] → cc.flag = .z ∨ cc.flag = .c)

/-- `JP nn` (41_jumps.md R80). -/
def Obligations.JpLoadsLittleEndianOperand : Prop :=
  (∀ s : State, s.Plain → exec .jp s = .next (s.setPc (s.byteAt (s.pc + 1#16) ++ s.byteAt s.pc))) ∧
  StopsAt .jp (fun s => .memRead s.pc) id (fun _ => True) ∧
  StopsAt .jp (fun s => .memRead (s.pc + 1#16)) id (fun _ => True) ∧
  (∀ x, decodeCmd (mkCmd 2 0 0) x = some .jp) ∧
  ∀ lo hi : Byte, decodeWhole [0xC3, lo, hi] = some (.jp, .addr (hi ++ lo), [])

/-- `JP cc, nn` (42_conditional.md R88). -/
def Obligations.JpCcJumpsWhenConditionHolds : Prop :=
  (∀ (cc : Cond) (s : State), s.Plain →
    exec (.jpCc cc) s = .next (s.setPc
      (if condHolds cc s.flags then s.byteAt (s.pc + 1#16) ++ s.byteAt s.pc else s.pc + 2#16))) ∧
  (∀ cc : Cond, StopsAt (.jpCc cc) (fun s => .memRead s.pc) id (fun _ => True) ∧
    StopsAt (.jpCc cc) (fun s => .memRead (s.pc + 1#16)) id (fun _ => True) ∧
    StopsAt (.jpCc cc) (fun _ => .getFlag cc.flag) (fun s => s.setPc (s.pc + 2#16)) (fun _ => True)) ∧
  (∀ (cc : Cond) (x : IndexReg), decodeCmd (mkCmd 3 cc.code 0) x = some (.jpCc cc)) ∧
  ∀ cc : Cond, decode [0xC2 ||| (cc.code.zeroExtend 8 <<< 3)] = .op (.jpCc cc) []

/-- `JP (HL)`, `JP (IX)`, `JP (IY)`: the value in the register, no memory read, the register kept
(41_jumps.md R81). -/
def Obligations.IndexJumpLoadsRegisterValue : Prop :=
  (∀ s : State, .indexValue ∉ s.env.failing →
    exec .jpHl s = .next (s.setPc s.hl) ∧ exec .jpIx s = .next (s.setPc s.ix) ∧
    exec .jpIy s = .next (s.setPc s.iy)) ∧
  (∀ s : State, .indexValue ∈ s.env.failing →
    exec .jpHl s = .fault (.envFail .indexValue s) ∧ exec .jpIx s = .fault (.envFail .indexValue s) ∧
    exec .jpIy s = .fault (.envFail .indexValue s)) ∧
  decodeCmd (mkCmd 4 0 0) .hl = some .jpHl ∧ decodeCmd (mkCmd 4 0 0) .ix = some .jpIx ∧
  decodeCmd (mkCmd 4 0 0) .iy = some .jpIy ∧
  decode [0xE9] = .op .jpHl [] ∧ decode [0xDD, 0xE9] = .op .jpIx [] ∧ decode [0xFD, 0xE9] = .op .jpIy []

/-- Neither jump links (41_jumps.md R82, which the spec marks "derived: from rules R80 and R81"): whatever the
environment, `SP` and every byte stay. -/
def Obligations.JumpsDoNotLink : Prop :=
  ∀ (i : Instr) (s t : State), (i = .jp ∨ i = .jpHl ∨ i = .jpIx ∨ i = .jpIy) → exec i s = .next t →
    t = s.setPc (if i = .jp then s.wordAt s.pc else s.index i.selectedIndex)

/-- `CALL nn` (43_linkage.md R100): the address after the operand is pushed, the operand read before the push
is the target. -/
def Obligations.CallPushesAddressAfterOperand : Prop :=
  (∀ s : State, s.Plain → s.Inv → ∃ t, exec .call s = .next t ∧
    CalledFrom s (s.pc + 2#16) (s.byteAt (s.pc + 1#16) ++ s.byteAt s.pc) t) ∧
  StopsAt .call (fun s => .memRead s.pc) id (fun _ => True) ∧
  StopsAt .call (fun s => .memRead (s.pc + 1#16)) id (fun _ => True) ∧
  StopsAt .call (fun s => .memWrite (s.sp - 1#16)) (fun s => s.setPc (s.pc + 2#16)) (fun _ => True) ∧
  StopsAt .call (fun s => .memWrite (s.sp - 2#16))
    (fun s => (s.setPc (s.pc + 2#16)).storeByte (s.sp - 1#16) ((s.pc + 2#16).extractLsb' 8 8)) (fun _ => True) ∧
  (∀ x, decodeCmd (mkCmd 5 0 0) x = some .call) ∧
  ∀ lo hi : Byte, decodeWhole [0xCD, lo, hi] = some (.call, .addr (hi ++ lo), [])

/-- `CALL cc, nn` (42_conditional.md R89). -/
def Obligations.CallCcPushesOnlyWhenTaken : Prop :=
  (∀ (cc : Cond) (s : State), s.Plain → s.Inv → condHolds cc s.flags = true →
    ∃ t, exec (.callCc cc) s = .next t ∧
      CalledFrom s (s.pc + 2#16) (s.byteAt (s.pc + 1#16) ++ s.byteAt s.pc) t) ∧
  (∀ (cc : Cond) (s : State), s.Plain → condHolds cc s.flags = false →
    exec (.callCc cc) s = .next (s.setPc (s.pc + 2#16))) ∧
  (∀ cc : Cond, StopsAt (.callCc cc) (fun s => .memRead s.pc) id (fun _ => True) ∧
    StopsAt (.callCc cc) (fun s => .memRead (s.pc + 1#16)) id (fun _ => True) ∧
    StopsAt (.callCc cc) (fun _ => .getFlag cc.flag) (fun s => s.setPc (s.pc + 2#16)) (fun _ => True) ∧
    StopsAt (.callCc cc) (fun s => .memWrite (s.sp - 1#16)) (fun s => s.setPc (s.pc + 2#16))
      (fun s => condHolds cc s.flags = true) ∧
    StopsAt (.callCc cc) (fun s => .memWrite (s.sp - 2#16))
      (fun s => (s.setPc (s.pc + 2#16)).storeByte (s.sp - 1#16) ((s.pc + 2#16).extractLsb' 8 8))
      (fun s => condHolds cc s.flags = true)) ∧
  (∀ (cc : Cond) (x : IndexReg), decodeCmd (mkCmd 6 cc.code 0) x = some (.callCc cc)) ∧
  ∀ cc : Cond, decode [0xC4 ||| (cc.code.zeroExtend 8 <<< 3)] = .op (.callCc cc) []

/-- `RST v` for every vector (43_linkage.md R101, 60_exceptions.md R125): `PC_in` is pushed, control goes to
the vector zero-extended, nothing else changes, and the display name shows the vector. -/
def Obligations.RstCallsItsVector : Prop :=
  (∀ (v : Byte) (s : State), s.Plain → s.Inv → ∃ t, exec (.rst v) s = .next t ∧
    CalledFrom s s.pc (0x00#8 ++ v) t) ∧
  (∀ v : Byte, StopsAt (.rst v) (fun s => .memWrite (s.sp - 1#16)) id (fun _ => True) ∧
    StopsAt (.rst v) (fun s => .memWrite (s.sp - 2#16))
      (fun s => s.storeByte (s.sp - 1#16) (s.pc.extractLsb' 8 8)) (fun _ => True)) ∧
  displayName (.rst 0x38) = "RST 38h" ∧
  (∀ (v : Byte) (x : IndexReg), decodeCmd (mkCmd 7 0 v) x = some (.rst v)) ∧
  ∀ k < 8, decode [BitVec.ofNat 8 (0xC7 + 8 * k)] = .op (.rst (BitVec.ofNat 8 (8 * k))) []

/-- `RET` (43_linkage.md R102), on any stack (R108). -/
def Obligations.RetPopsProgramCounter : Prop :=
  (∀ s : State, s.Plain →
    exec .ret s = .next ((s.setSp (s.sp + 2#16)).setPc (s.byteAt (s.sp + 1#16) ++ s.byteAt s.sp))) ∧
  StopsAt .ret (fun s => .memRead s.sp) id (fun _ => True) ∧
  StopsAt .ret (fun s => .memRead (s.sp + 1#16)) id (fun _ => True) ∧
  (∀ x, decodeCmd (mkCmd 8 0 0) x = some .ret) ∧ decode [0xC9] = .op .ret []

/-- `RET cc` (42_conditional.md R90): not taken, no state changes at all. -/
def Obligations.RetCcReturnsOnlyWhenTaken : Prop :=
  (∀ (cc : Cond) (s : State), s.Plain → condHolds cc s.flags = true →
    exec (.retCc cc) s = .next ((s.setSp (s.sp + 2#16)).setPc (s.byteAt (s.sp + 1#16) ++ s.byteAt s.sp))) ∧
  (∀ (cc : Cond) (s : State), .getFlag cc.flag ∉ s.env.failing → condHolds cc s.flags = false →
    exec (.retCc cc) s = .next s) ∧
  (∀ cc : Cond, StopsAt (.retCc cc) (fun _ => .getFlag cc.flag) id (fun _ => True) ∧
    StopsAt (.retCc cc) (fun s => .memRead s.sp) id (fun s => condHolds cc s.flags = true) ∧
    StopsAt (.retCc cc) (fun s => .memRead (s.sp + 1#16)) id (fun s => condHolds cc s.flags = true)) ∧
  (∀ (cc : Cond) (x : IndexReg), decodeCmd (mkCmd 9 cc.code 0) x = some (.retCc cc)) ∧
  ∀ cc : Cond, decode [0xC0 ||| (cc.code.zeroExtend 8 <<< 3)] = .op (.retCc cc) []

/-- `RETI` (43_linkage.md R103): in state, exactly `RET`, in every environment. -/
def Obligations.RetiIsRetInState : Prop :=
  (∀ s : State, s.Plain →
    exec .reti s = .next ((s.setSp (s.sp + 2#16)).setPc (s.byteAt (s.sp + 1#16) ++ s.byteAt s.sp))) ∧
  (∀ s : State, exec .reti s = exec .ret s) ∧
  (∀ x, decodeCmd (mkCmd 10 0 0) x = some .reti) ∧ decode [0xED, 0x4D] = .op .reti []

/-- `RETN` (43_linkage.md R104): the pop first, then `IN_NMI` is cleared; a failing pop leaves the flag, a
failing clear leaves the pop. -/
def Obligations.RetnPopsThenClearsInNmi : Prop :=
  (∀ s : State, s.Plain →
    exec .retn s =
      .next (((s.setSp (s.sp + 2#16)).setPc (s.byteAt (s.sp + 1#16) ++ s.byteAt s.sp)).setInNmi false)) ∧
  StopsAt .retn (fun s => .memRead s.sp) id (fun _ => True) ∧
  StopsAt .retn (fun s => .memRead (s.sp + 1#16)) id (fun _ => True) ∧
  StopsAt .retn (fun _ => .endNmi)
    (fun s => (s.setSp (s.sp + 2#16)).setPc (s.byteAt (s.sp + 1#16) ++ s.byteAt s.sp)) (fun _ => True) ∧
  (∀ x, decodeCmd (mkCmd 11 0 0) x = some .retn) ∧ decode [0xED, 0x45] = .op .retn []

/-- `DJNZ d` (44_djnz.md R110, R111): the displacement is consumed, the register decremented once with
wrap-around, and the test is on the decremented value. -/
def Obligations.DjnzDecrementsThenTests : Prop :=
  (∀ s : State, s.Plain → ∃ t, exec .djnz s = .next t ∧
    t.b.toNat = (s.b.toNat + 255) % 256 ∧
    t = (s.setB t.b).setPc (if t.b = 0x00 then s.pc + 1#16 else s.pc + 1#16 + sext16 (s.byteAt s.pc))) ∧
  StopsAt .djnz (fun s => .memRead s.pc) id (fun _ => True) ∧
  StopsAt .djnz (fun _ => .get8) (fun s => s.setPc (s.pc + 1#16)) (fun _ => True) ∧
  StopsAt .djnz (fun _ => .set8) (fun s => s.setPc (s.pc + 1#16)) (fun _ => True) ∧
  (∀ x, decodeCmd (mkCmd 12 0 0) x = some .djnz) ∧ decode [0x10] = .op .djnz []

/-! ## Frames, in every environment -/

/-- The frame of the jumps: only `PC` changes, and every byte of memory reads as before. -/
def Obligations.JumpFrame : Prop :=
  ∀ (i : Instr) (s t : State),
    (i = .jr ∨ i = .jp ∨ i = .jpHl ∨ i = .jpIx ∨ i = .jpIy ∨ (∃ cc, i = .jrCc cc) ∨ ∃ cc, i = .jpCc cc) →
    exec i s = .next t →
    t.sp = s.sp ∧ t.b = s.b ∧ t.inNmi = s.inNmi ∧ SameOutsideCtd s t ∧ SameBytesExcept [] s t

/-- The frame of `DJNZ`: only `PC` and the counting register change. -/
def Obligations.DjnzFrame : Prop :=
  ∀ s t : State, exec .djnz s = .next t →
    t.sp = s.sp ∧ t.inNmi = s.inNmi ∧ SameOutsideCtd s t ∧ SameBytesExcept [] s t

/-- The frame of the calls: `PC`, `SP` and the two bytes below the old `SP` change, or only `PC` when the
condition does not hold. -/
def Obligations.CallFrame : Prop :=
  ∀ (i : Instr) (s t : State), (i = .call ∨ (∃ v, i = .rst v) ∨ ∃ cc, i = .callCc cc) →
    exec i s = .next t →
    t.b = s.b ∧ t.inNmi = s.inNmi ∧ SameOutsideCtd s t ∧
    ((t.sp = s.sp - 2#16 ∧ SameBytesExcept [s.sp - 2#16, s.sp - 1#16] s t) ∨
     (t.sp = s.sp ∧ SameBytesExcept [] s t ∧ ∃ cc, i = .callCc cc ∧ condHolds cc s.flags = false))

/-- The frame of the returns: `PC` and `SP` change, `IN_NMI` too for `RETN`; nothing is stored. -/
def Obligations.ReturnFrame : Prop :=
  ∀ (i : Instr) (s t : State), (i = .ret ∨ i = .reti ∨ i = .retn ∨ ∃ cc, i = .retCc cc) →
    exec i s = .next t →
    t.b = s.b ∧ SameOutsideCtd s t ∧ SameBytesExcept [] s t ∧
    t.inNmi = (if i = .retn then false else s.inNmi) ∧
    (t.sp = s.sp + 2#16 ∨ (t = s ∧ ∃ cc, i = .retCc cc ∧ condHolds cc s.flags = false))

/-! ## Rules about the whole machine -/

/-- No operation writes a flag (10_state.md R19), in any environment. -/
def Obligations.NoOperationWritesFlags : Prop :=
  ∀ (i : Instr) (s t : State), exec i s = .next t → t.flags = s.flags

/-- `IN_NMI` is cleared by `RETN`, left by every other operation, set by none and read by none; it is set
outside the CTD, when a non-maskable interrupt is accepted (10_state.md R22). -/
def Obligations.InNmiClearedByRetnAloneReadByNone : Prop :=
  (∀ (i : Instr) (s t : State), exec i s = .next t → t.inNmi = (if i = .retn then false else s.inNmi)) ∧
  (∀ (i : Instr) (s t : State) (v : Bool), exec i s = .next t →
    exec i (s.setInNmi v) = .next (if i = .retn then t else t.setInNmi v)) ∧
  (∀ (handler : Word) (s t : State), systemStep (some (.nmi handler)) s = .next t → t.inNmi = true)

/-- Each operation writes only the state that 10_state.md R10 lists for it. -/
def Obligations.OperationsWriteOnlyListedState : Prop :=
  ∀ (i : Instr) (s t : State), exec i s = .next t →
    SameOutsideCtd s t ∧ (i ≠ .djnz → t.b = s.b) ∧ (i ≠ .retn → t.inNmi = s.inNmi) ∧
    (i.kind ∉ ([5, 6, 7, 8, 9, 10, 11] : List (BitVec 4)) → t.sp = s.sp) ∧
    (i.kind ∉ ([5, 6, 7] : List (BitVec 4)) → t.mem = s.mem)

/-- Every operation is total on every state (60_exceptions.md R120), in the default environment. -/
def Obligations.EveryOperationIsTotal : Prop :=
  ∀ (i : Instr) (s : State), s.Plain → ∃ t, exec i s = .next t

/-- An operation stops with a fault only because an environment operation failed, and hands on that failure
(60_exceptions.md R121). -/
def Obligations.FaultsArePropagatedFailures : Prop :=
  ∀ (i : Instr) (s : State) (r : Fault), exec i s = .fault r →
    ∃ call left, r = .envFail call left ∧ left.env = s.env ∧
      (call ∈ s.env.failing ∨
       ∃ a, (call = .memRead a ∨ call = .memWrite a) ∧ regionKind s.env.memMap a = .hole)

/-- No roll-back: the state each failing sub-step leaves, row by row of 60_exceptions.md R122, where exactly
one environment operation fails. -/
def Obligations.FailureKeepsCompletedSubsteps : Prop :=
  ∀ (s : State) (c : EnvCall), s.env = ⟨[c], []⟩ →
    (∀ i : Instr, i.format ≠ .n → c = .memRead s.pc → exec i s = .fault (.envFail c s)) ∧
    (∀ i : Instr, i.format = .nn → c = .memRead (s.pc + 1#16) → exec i s = .fault (.envFail c s)) ∧
    (∀ cc : Cond, c = .getFlag cc.flag →
      exec (.jrCc cc) s = .fault (.envFail c (s.setPc (s.pc + 1#16))) ∧
      exec (.jpCc cc) s = .fault (.envFail c (s.setPc (s.pc + 2#16))) ∧
      exec (.callCc cc) s = .fault (.envFail c (s.setPc (s.pc + 2#16))) ∧
      exec (.retCc cc) s = .fault (.envFail c s)) ∧
    (∀ i : Instr, (i = .call ∨ ∃ cc, i = .callCc cc ∧ condHolds cc s.flags = true) →
      (c = .memWrite (s.sp - 1#16) → exec i s = .fault (.envFail c (s.setPc (s.pc + 2#16)))) ∧
      (c = .memWrite (s.sp - 2#16) → exec i s =
        .fault (.envFail c
          ((s.setPc (s.pc + 2#16)).storeByte (s.sp - 1#16) ((s.pc + 2#16).extractLsb' 8 8))))) ∧
    (∀ v : Byte,
      (c = .memWrite (s.sp - 1#16) → exec (.rst v) s = .fault (.envFail c s)) ∧
      (c = .memWrite (s.sp - 2#16) → exec (.rst v) s =
        .fault (.envFail c (s.storeByte (s.sp - 1#16) (s.pc.extractLsb' 8 8))))) ∧
    (∀ i : Instr, (i = .ret ∨ i = .reti ∨ i = .retn ∨ ∃ cc, i = .retCc cc ∧ condHolds cc s.flags = true) →
      (c = .memRead s.sp ∨ c = .memRead (s.sp + 1#16)) → exec i s = .fault (.envFail c s)) ∧
    (c = .endNmi → exec .retn s = .fault (.envFail c ((s.setSp (s.sp + 2#16)).setPc (s.wordAt s.sp)))) ∧
    (c = .get8 ∨ c = .set8 → exec .djnz s = .fault (.envFail c (s.setPc (s.pc + 1#16)))) ∧
    (c = .indexValue → exec .jpHl s = .fault (.envFail c s) ∧ exec .jpIx s = .fault (.envFail c s) ∧
      exec .jpIy s = .fault (.envFail c s))

/-- Every step (log entry 1) keeps memory in its canonical form, in every environment. -/
def Obligations.StepKeepsMemoryCanonical : Prop :=
  ∀ s t : State, s.Inv → step s = .next t → t.Inv ∧ t.env = s.env

/-- Memory is canonical after reset, for any canonical launch memory. -/
def Obligations.ResetMemoryIsCanonical : Prop :=
  State.reset.Inv ∧ ∀ (p : ResetParams) (s : State), s.Inv → (resetTo p s).Inv

/-- Outside events keep memory canonical too, as long as what another instruction leaves is. -/
def Obligations.SystemRunKeepsMemoryCanonical : Prop :=
  ∀ (events : List (Option Outside)) (s t : State), s.Inv →
    (∀ after, some (.otherInstruction after) ∈ events → after.Inv) →
    systemRun events s = .next t → t.Inv

/-! ## Laws over several operations -/

/-- The not-taken law and its counterpart (42_conditional.md R91). -/
def Obligations.ConditionalIsNothingOrUnconditional : Prop :=
  ∀ (cc : Cond) (s : State), s.Plain →
    (condHolds cc s.flags = false →
      exec (.jrCc cc) s = .next (s.setPc (s.pc + 1#16)) ∧ exec (.jpCc cc) s = .next (s.setPc (s.pc + 2#16)) ∧
      exec (.callCc cc) s = .next (s.setPc (s.pc + 2#16)) ∧ exec (.retCc cc) s = .next s) ∧
    (condHolds cc s.flags = true →
      exec (.jrCc cc) s = exec .jr s ∧ exec (.jpCc cc) s = exec .jp s ∧
      exec (.callCc cc) s = exec .call s ∧ exec (.retCc cc) s = exec .ret s)

/-- The call/return round trip (43_linkage.md R105, whose precise form the spec marks "derived"): a call,
anything that leaves the pushed word and brings `SP` back, then a return. -/
def Obligations.CallReturnRoundTrip : Prop :=
  ∀ (i j : Instr) (s t u : State), s.Plain → s.Inv → u.Plain →
    (i = .call ∨ (∃ cc, i = .callCc cc ∧ condHolds cc s.flags = true) ∨ ∃ v, i = .rst v) →
    (j = .ret ∨ j = .reti ∨ j = .retn ∨ ∃ cc, j = .retCc cc ∧ condHolds cc u.flags = true) →
    exec i s = .next t →
    u.sp = s.sp - 2#16 → u.byteAt (s.sp - 2#16) = t.byteAt (s.sp - 2#16) →
    u.byteAt (s.sp - 1#16) = t.byteAt (s.sp - 1#16) →
    t.sp = s.sp - 2#16 ∧ (i.kind ≠ 7 → t.pc = s.wordAt s.pc) ∧
    ∃ w, exec j u = .next w ∧ w.sp = s.sp ∧ w.pc = (if i.kind = 7 then s.pc else s.pc + 2#16)

/-- Pushes and pops pair last-in first-out (43_linkage.md R106, which the spec marks "derived: from rules R95 and
R96"). -/
def Obligations.PushesAndPopsAreLifo : Prop :=
  ∀ (a b : Word) (s s1 s2 u : State), s.Plain → s.Inv → u.Plain →
    push16 a s = .ok () s1 → push16 b s1 = .ok () s2 →
    u.sp = s2.sp → (∀ k < 4, u.byteAt (s2.sp + BitVec.ofNat 16 k) = s2.byteAt (s2.sp + BitVec.ofNat 16 k)) →
    ∃ v, pop16 u = .ok b v ∧ ∃ w, pop16 v = .ok a w ∧ w.sp = s.sp

/-- The loop count of `DJNZ` (44_djnz.md R112, which the spec marks "derived: from rules R110 and R111"): in any
loop whose body leaves the counting register alone, the executions `0 .. N - 2` jump and execution `N - 1` falls through with the register 0, where `N` is the
register at entry, or 256 when that is 0. -/
def Obligations.DjnzLoopCount : Prop :=
  ∀ before after : Nat → State,
    (∀ k, (before k).Plain) → (∀ k, exec .djnz (before k) = .next (after k)) →
    (∀ k, (before (k + 1)).b = (after k).b) →
    let n := if (before 0).b = 0 then 256 else (before 0).b.toNat
    (∀ k, k + 1 < n → (after k).b ≠ 0 ∧
      (after k).pc = (before k).pc + 1#16 + sext16 ((before k).byteAt (before k).pc)) ∧
    (after (n - 1)).b = 0 ∧ (after (n - 1)).pc = (before (n - 1)).pc + 1#16

/-- The same as steps of the machine: a `DJNZ` that jumps to itself runs as many steps as the register says,
and leaves only `PC` and the register changed (44_djnz.md R110; R112, which the spec marks derived; that a step is
one operation with its fetch is the model's reading, log entry 1). -/
def Obligations.DjnzToItselfRunsCountSteps : Prop :=
  ∀ s : State, s.Plain → BytesAt s s.pc [0x10, 0xFE] →
    let n := if s.b = 0 then 256 else s.b.toNat
    (∀ k < n, Sys2Proof.core.run k s = .next (s.setB (s.b - BitVec.ofNat 8 k))) ∧
    Sys2Proof.core.run n s = .next ((s.setB 0).setPc (s.pc + 2#16))

/-- An operand fetch after a push sees the pushed bytes at once, and a call whose push overwrites its own
operand uses the operand read before (20_memory.md R41, R43, 70_reset_and_hazards.md R146). -/
def Obligations.FetchSeesPushedBytes : Prop :=
  ∀ s t : State, s.Plain → s.Inv → exec .call s = .next t →
    t.pc = s.wordAt s.pc ∧ exec .jp (t.setPc t.sp) = .next (t.setPc (s.pc + 2#16)) ∧
    (s.sp = s.pc + 2#16 → t.wordAt s.pc = s.pc + 2#16)

/-! ## Interrupts, reset, platform, names -/

/-- Only the acceptance of a non-maskable interrupt sets `IN_NMI` (60_exceptions.md R127). -/
def Obligations.OnlyNmiEntrySetsInNmi : Prop :=
  ∀ (e : Option Outside) (s t : State), systemStep e s = .next t → t.inNmi = true →
    s.inNmi = true ∨ ∃ handler, e = some (.nmi handler)

/-- Entry to a handler as 60_exceptions.md R126 asks of it, then a return: the interrupted program goes on
where it was, and `RETN` clears the flag though it was set before (R131). The order of flag and push is
log entry 17. -/
def Obligations.InterruptEntryAndReturn : Prop :=
  (∀ (h : Word) (s : State), s.Plain → s.Inv →
    ∃ t, systemStep (some (.nmi h)) s = .next t ∧ t.pc = h ∧ t.sp = s.sp - 2#16 ∧ t.inNmi = true ∧
      SameBytesExcept [s.sp - 2#16, s.sp - 1#16] s t ∧ t.b = s.b ∧ SameOutsideCtd s t ∧
      ∃ u, exec .retn t = .next u ∧ u.pc = s.pc ∧ u.sp = s.sp ∧ u.inNmi = false) ∧
  (∀ (h : Word) (s : State), s.Plain → s.Inv →
    ∃ t, systemStep (some (.interrupt h)) s = .next t ∧ CalledFrom s s.pc h t ∧
      ∃ u, exec .reti t = .next u ∧ u.pc = s.pc ∧ u.sp = s.sp ∧ u.inNmi = s.inNmi)

/-- Reset writes `PC` and `IN_NMI`; the registers it does not write are given as parameters, and with their
old values nothing else changes; the first operation starts after the opcode byte(s) at `0x0000`
(70_reset_and_hazards.md R140, 10_state.md R24; the parameters are log entry 25, the step is log entry 1). -/
def Obligations.ResetWritesPcAndInNmi : Prop :=
  (∀ (p : ResetParams) (s : State), (resetTo p s).pc = 0x0000 ∧ (resetTo p s).inNmi = false ∧
    (resetTo p s).mem = s.mem) ∧
  (∀ s : State, resetTo s.resetParams s = (s.setPc 0x0000).setInNmi false) ∧
  (∀ (p : ResetParams) (s : State) (i : Instr) (b : Byte), s.Plain → s.byteAt 0x0000 = b →
    decode [b] = .op i [] → step (resetTo p s) = exec i ((resetTo p s).setPc 0x0001)) ∧
  (∀ (p : ResetParams) (s : State) (i : Instr) (b b' : Byte), s.Plain → s.byteAt 0x0000 = b →
    s.byteAt 0x0001 = b' → decode [b] = .needMore → decode [b, b'] = .op i [] →
    step (resetTo p s) = exec i ((resetTo p s).setPc 0x0002))

/-- The reset state: `PC` and `IN_NMI` as 10_state.md R24 gives them, the others the model's choice (log
entries 3, 4, 5). -/
def Obligations.ResetStateValues : Prop :=
  State.reset.pc = 0x0000 ∧ State.reset.inNmi = false ∧
  State.reset.sp = 0x0000 ∧ State.reset.b = 0x00 ∧ State.reset.flags = ⟨false, false, false, false⟩ ∧
  State.reset.hl = 0x0000 ∧ State.reset.ix = 0x0000 ∧ State.reset.iy = 0x0000 ∧
  (∀ a, State.reset.byteAt a = 0x00) ∧ State.reset.Plain

/-- ROM accepts a push and keeps its bytes (20_memory.md R32; MEM_MAP, log entry 7). -/
def Obligations.PushToRomKeepsBytes : Prop :=
  ∀ (v : Byte) (s : State), s.env.failing = [] →
    regionKind s.env.memMap (s.sp - 1#16) = .rom → regionKind s.env.memMap (s.sp - 2#16) = .rom →
    exec (.rst v) s = .next ((s.setSp (s.sp - 2#16)).setPc (zext16 v))

/-- Holes fail and devices are refused (60_exceptions.md R121, 20_memory.md R32; the model's choices, log entries 6
and 8), for every read and write of a byte, and so for pops, pushes and the opcode fetch, whose failure is log entry
13. -/
def Obligations.HolesFailDevicesAreRefused : Prop :=
  ∀ s : State, s.env.failing = [] →
    (∀ (a : Word) (v : Byte), regionKind s.env.memMap a = .hole →
      readMem a s = .fault (.envFail (.memRead a) s) ∧ writeMem a v s = .fault (.envFail (.memWrite a) s)) ∧
    (∀ (a : Word) (v : Byte), regionKind s.env.memMap a = .device →
      readMem a s = .refuse (.deviceAccess (.memRead a)) ∧ writeMem a v s = .refuse (.deviceAccess (.memWrite a))) ∧
    (regionKind s.env.memMap s.sp = .hole → exec .ret s = .fault (.envFail (.memRead s.sp) s)) ∧
    (regionKind s.env.memMap s.sp = .device → exec .ret s = .refused (.deviceAccess (.memRead s.sp))) ∧
    (∀ v : Byte, regionKind s.env.memMap (s.sp - 1#16) = .hole →
      exec (.rst v) s = .fault (.envFail (.memWrite (s.sp - 1#16)) s)) ∧
    (∀ v : Byte, regionKind s.env.memMap (s.sp - 1#16) = .device →
      exec (.rst v) s = .refused (.deviceAccess (.memWrite (s.sp - 1#16)))) ∧
    (regionKind s.env.memMap s.pc = .hole → step s = .fault (.envFail (.memRead s.pc) s)) ∧
    (regionKind s.env.memMap s.pc = .device → step s = .refused (.deviceAccess (.memRead s.pc)))

/-- The display names of all operations: the conditional ones over the eight descriptors in the order of R53, the
restarts with every vector as two lowercase hex digits (30_encoding.md R59, R60, whose strings are mostly the spec's
decision D17; the index jump's is open and the model's choice, log entry 19). -/
def Obligations.DisplayNamesFollowThePattern : Prop :=
  displayName .jr = "JR d" ∧ displayName .jp = "JP nn" ∧ displayName .call = "CALL nn" ∧
  displayName .ret = "RET" ∧ displayName .reti = "RETI" ∧ displayName .retn = "RETN" ∧
  displayName .djnz = "DJNZ d" ∧
  [0, 1, 2, 3, 4, 5, 6, 7].map (fun k => displayName (.jrCc (Cond.ofCode (BitVec.ofNat 3 k)))) =
    ["JR NZ, d", "JR Z, d", "JR NC, d", "JR C, d", "JR PO, d", "JR PE, d", "JR P, d", "JR M, d"] ∧
  [0, 1, 2, 3, 4, 5, 6, 7].map (fun k => displayName (.jpCc (Cond.ofCode (BitVec.ofNat 3 k)))) =
    ["JP NZ, nn", "JP Z, nn", "JP NC, nn", "JP C, nn", "JP PO, nn", "JP PE, nn", "JP P, nn", "JP M, nn"] ∧
  [0, 1, 2, 3, 4, 5, 6, 7].map (fun k => displayName (.callCc (Cond.ofCode (BitVec.ofNat 3 k)))) =
    ["CALL NZ, nn", "CALL Z, nn", "CALL NC, nn", "CALL C, nn", "CALL PO, nn", "CALL PE, nn", "CALL P, nn",
      "CALL M, nn"] ∧
  [0, 1, 2, 3, 4, 5, 6, 7].map (fun k => displayName (.retCc (Cond.ofCode (BitVec.ofNat 3 k)))) =
    ["RET NZ", "RET Z", "RET NC", "RET C", "RET PO", "RET PE", "RET P", "RET M"] ∧
  displayName .jpHl = "JP (idx)" ∧ displayName .jpIx = "JP (idx)" ∧ displayName .jpIy = "JP (idx)" ∧
  tracerName .jpHl = "JP (HL)" ∧ tracerName .jpIx = "JP (IX)" ∧ tracerName .jpIy = "JP (IY)" ∧
  displayName (.rst 0x38) = "RST 38h" ∧ displayName (.rst 0x08) = "RST 08h" ∧
  displayName (.rst 0xAB) = "RST abh" ∧
  ∀ hi < 16, ∀ lo < 16, displayName (.rst (BitVec.ofNat 8 (16 * hi + lo))) =
    "RST " ++ String.ofList ["0123456789abcdef".toList.getD hi ' ', "0123456789abcdef".toList.getD lo ' '] ++ "h"

/-- A step is refused for prefixes without end exactly when every byte of memory is an index prefix, so the bound on
the fetch cuts off no instruction that ever begins (the model's choice, log entry 14; the prefixes are log entry 10,
the step log entry 1). -/
def Obligations.StepRefusesEndlessPrefixes : Prop :=
  ∀ s : State, s.Plain →
    (step s = .refused .endlessPrefixes ↔ ∀ a : Word, s.byteAt a = 0xDD ∨ s.byteAt a = 0xFD)
end

