-- ==== Sys2Proof/Laws/State.lean ====
section
/-!
SUPPORT. One lemma per field per update of the state, true by rfl, and what the views of memory read
after an update of another field.
-/

namespace Sys2Proof.Machine

@[simp] theorem State.setPc_pc (s : State) (v : Word) : (s.setPc v).pc = v := rfl
@[simp] theorem State.setPc_sp (s : State) (v : Word) : (s.setPc v).sp = s.sp := rfl
@[simp] theorem State.setPc_b (s : State) (v : Word) : (s.setPc v).b = s.b := rfl
@[simp] theorem State.setPc_flags (s : State) (v : Word) : (s.setPc v).flags = s.flags := rfl
@[simp] theorem State.setPc_hl (s : State) (v : Word) : (s.setPc v).hl = s.hl := rfl
@[simp] theorem State.setPc_ix (s : State) (v : Word) : (s.setPc v).ix = s.ix := rfl
@[simp] theorem State.setPc_iy (s : State) (v : Word) : (s.setPc v).iy = s.iy := rfl
@[simp] theorem State.setPc_inNmi (s : State) (v : Word) : (s.setPc v).inNmi = s.inNmi := rfl
@[simp] theorem State.setPc_mem (s : State) (v : Word) : (s.setPc v).mem = s.mem := rfl
@[simp] theorem State.setPc_env (s : State) (v : Word) : (s.setPc v).env = s.env := rfl
@[simp] theorem State.setPc_byteAt (s : State) (v : Word) (a : Word) : (s.setPc v).byteAt a = s.byteAt a := rfl
@[simp] theorem State.setPc_wordAt (s : State) (v : Word) (a : Word) : (s.setPc v).wordAt a = s.wordAt a := rfl
@[simp] theorem State.setPc_index (s : State) (v : Word) (x : IndexReg) : (s.setPc v).index x = s.index x := by
  cases x <;> rfl

@[simp] theorem State.setSp_pc (s : State) (v : Word) : (s.setSp v).pc = s.pc := rfl
@[simp] theorem State.setSp_sp (s : State) (v : Word) : (s.setSp v).sp = v := rfl
@[simp] theorem State.setSp_b (s : State) (v : Word) : (s.setSp v).b = s.b := rfl
@[simp] theorem State.setSp_flags (s : State) (v : Word) : (s.setSp v).flags = s.flags := rfl
@[simp] theorem State.setSp_hl (s : State) (v : Word) : (s.setSp v).hl = s.hl := rfl
@[simp] theorem State.setSp_ix (s : State) (v : Word) : (s.setSp v).ix = s.ix := rfl
@[simp] theorem State.setSp_iy (s : State) (v : Word) : (s.setSp v).iy = s.iy := rfl
@[simp] theorem State.setSp_inNmi (s : State) (v : Word) : (s.setSp v).inNmi = s.inNmi := rfl
@[simp] theorem State.setSp_mem (s : State) (v : Word) : (s.setSp v).mem = s.mem := rfl
@[simp] theorem State.setSp_env (s : State) (v : Word) : (s.setSp v).env = s.env := rfl
@[simp] theorem State.setSp_byteAt (s : State) (v : Word) (a : Word) : (s.setSp v).byteAt a = s.byteAt a := rfl
@[simp] theorem State.setSp_wordAt (s : State) (v : Word) (a : Word) : (s.setSp v).wordAt a = s.wordAt a := rfl
@[simp] theorem State.setSp_index (s : State) (v : Word) (x : IndexReg) : (s.setSp v).index x = s.index x := by
  cases x <;> rfl

@[simp] theorem State.setB_pc (s : State) (v : Byte) : (s.setB v).pc = s.pc := rfl
@[simp] theorem State.setB_sp (s : State) (v : Byte) : (s.setB v).sp = s.sp := rfl
@[simp] theorem State.setB_b (s : State) (v : Byte) : (s.setB v).b = v := rfl
@[simp] theorem State.setB_flags (s : State) (v : Byte) : (s.setB v).flags = s.flags := rfl
@[simp] theorem State.setB_hl (s : State) (v : Byte) : (s.setB v).hl = s.hl := rfl
@[simp] theorem State.setB_ix (s : State) (v : Byte) : (s.setB v).ix = s.ix := rfl
@[simp] theorem State.setB_iy (s : State) (v : Byte) : (s.setB v).iy = s.iy := rfl
@[simp] theorem State.setB_inNmi (s : State) (v : Byte) : (s.setB v).inNmi = s.inNmi := rfl
@[simp] theorem State.setB_mem (s : State) (v : Byte) : (s.setB v).mem = s.mem := rfl
@[simp] theorem State.setB_env (s : State) (v : Byte) : (s.setB v).env = s.env := rfl
@[simp] theorem State.setB_byteAt (s : State) (v : Byte) (a : Word) : (s.setB v).byteAt a = s.byteAt a := rfl
@[simp] theorem State.setB_wordAt (s : State) (v : Byte) (a : Word) : (s.setB v).wordAt a = s.wordAt a := rfl
@[simp] theorem State.setB_index (s : State) (v : Byte) (x : IndexReg) : (s.setB v).index x = s.index x := by
  cases x <;> rfl

@[simp] theorem State.setMem_pc (s : State) (v : Memory) : (s.setMem v).pc = s.pc := rfl
@[simp] theorem State.setMem_sp (s : State) (v : Memory) : (s.setMem v).sp = s.sp := rfl
@[simp] theorem State.setMem_b (s : State) (v : Memory) : (s.setMem v).b = s.b := rfl
@[simp] theorem State.setMem_flags (s : State) (v : Memory) : (s.setMem v).flags = s.flags := rfl
@[simp] theorem State.setMem_hl (s : State) (v : Memory) : (s.setMem v).hl = s.hl := rfl
@[simp] theorem State.setMem_ix (s : State) (v : Memory) : (s.setMem v).ix = s.ix := rfl
@[simp] theorem State.setMem_iy (s : State) (v : Memory) : (s.setMem v).iy = s.iy := rfl
@[simp] theorem State.setMem_inNmi (s : State) (v : Memory) : (s.setMem v).inNmi = s.inNmi := rfl
@[simp] theorem State.setMem_mem (s : State) (v : Memory) : (s.setMem v).mem = v := rfl
@[simp] theorem State.setMem_env (s : State) (v : Memory) : (s.setMem v).env = s.env := rfl
@[simp] theorem State.setMem_index (s : State) (v : Memory) (x : IndexReg) : (s.setMem v).index x = s.index x := by
  cases x <;> rfl

@[simp] theorem State.setInNmi_pc (s : State) (v : Bool) : (s.setInNmi v).pc = s.pc := rfl
@[simp] theorem State.setInNmi_sp (s : State) (v : Bool) : (s.setInNmi v).sp = s.sp := rfl
@[simp] theorem State.setInNmi_b (s : State) (v : Bool) : (s.setInNmi v).b = s.b := rfl
@[simp] theorem State.setInNmi_flags (s : State) (v : Bool) : (s.setInNmi v).flags = s.flags := rfl
@[simp] theorem State.setInNmi_hl (s : State) (v : Bool) : (s.setInNmi v).hl = s.hl := rfl
@[simp] theorem State.setInNmi_ix (s : State) (v : Bool) : (s.setInNmi v).ix = s.ix := rfl
@[simp] theorem State.setInNmi_iy (s : State) (v : Bool) : (s.setInNmi v).iy = s.iy := rfl
@[simp] theorem State.setInNmi_inNmi (s : State) (v : Bool) : (s.setInNmi v).inNmi = v := rfl
@[simp] theorem State.setInNmi_mem (s : State) (v : Bool) : (s.setInNmi v).mem = s.mem := rfl
@[simp] theorem State.setInNmi_env (s : State) (v : Bool) : (s.setInNmi v).env = s.env := rfl
@[simp] theorem State.setInNmi_byteAt (s : State) (v : Bool) (a : Word) : (s.setInNmi v).byteAt a = s.byteAt a := rfl
@[simp] theorem State.setInNmi_wordAt (s : State) (v : Bool) (a : Word) : (s.setInNmi v).wordAt a = s.wordAt a := rfl
@[simp] theorem State.setInNmi_index (s : State) (v : Bool) (x : IndexReg) : (s.setInNmi v).index x = s.index x := by
  cases x <;> rfl

@[simp] theorem State.storeByte_pc (s : State) (a : Word) (v : Byte) : (s.storeByte a v).pc = s.pc := rfl
@[simp] theorem State.storeByte_sp (s : State) (a : Word) (v : Byte) : (s.storeByte a v).sp = s.sp := rfl
@[simp] theorem State.storeByte_b (s : State) (a : Word) (v : Byte) : (s.storeByte a v).b = s.b := rfl
@[simp] theorem State.storeByte_flags (s : State) (a : Word) (v : Byte) : (s.storeByte a v).flags = s.flags := rfl
@[simp] theorem State.storeByte_hl (s : State) (a : Word) (v : Byte) : (s.storeByte a v).hl = s.hl := rfl
@[simp] theorem State.storeByte_ix (s : State) (a : Word) (v : Byte) : (s.storeByte a v).ix = s.ix := rfl
@[simp] theorem State.storeByte_iy (s : State) (a : Word) (v : Byte) : (s.storeByte a v).iy = s.iy := rfl
@[simp] theorem State.storeByte_inNmi (s : State) (a : Word) (v : Byte) : (s.storeByte a v).inNmi = s.inNmi := rfl
@[simp] theorem State.storeByte_env (s : State) (a : Word) (v : Byte) : (s.storeByte a v).env = s.env := rfl

/-- The last of two loads of `PC` counts. -/
@[simp] theorem State.setPc_setPc (s : State) (v w : Word) : (s.setPc v).setPc w = s.setPc w := rfl

@[simp] theorem State.setPc_self (s : State) : s.setPc s.pc = s := rfl

@[simp] theorem State.setMem_self (s : State) : s.setMem s.mem = s := rfl

@[simp] theorem State.setMem_setMem (s : State) (m n : Memory) : (s.setMem m).setMem n = s.setMem n := rfl

theorem State.setSp_setPc (s : State) (v w : Word) : (s.setPc v).setSp w = (s.setSp w).setPc v := rfl

end Sys2Proof.Machine
end

