-- ==== Sys2Proof/Laws/Memory.lean ====
section
/-!
SUPPORT. The laws of memory: a write is read back, leaves every other address alone, and keeps the
canonical form; in canonical form equal reads mean equal memories.
-/

namespace Sys2Proof.Machine

theorem Memory.wfFrom_mono {m : Memory} {lo lo' : Nat} (h : lo' ≤ lo) (hw : m.wfFrom lo = true) :
    m.wfFrom lo' = true := by
  cases m with
  | nil => rfl
  | cons c m =>
    obtain ⟨k, v⟩ := c
    simp only [Memory.wfFrom, Bool.and_eq_true, decide_eq_true_eq] at hw ⊢
    exact ⟨⟨⟨by omega, hw.1.1.2⟩, hw.1.2⟩, hw.2⟩

/-- Below the bound of a canonical list nothing is listed. -/
theorem Memory.read_below {m : Memory} {lo a : Nat} (hw : m.wfFrom lo = true) (ha : a < lo) :
    m.read a = Config.unlistedByte := by
  induction m generalizing lo with
  | nil => rfl
  | cons c m ih =>
    obtain ⟨k, v⟩ := c
    simp only [Memory.wfFrom, Bool.and_eq_true, decide_eq_true_eq] at hw
    have hk : k ≠ a := by omega
    simp only [Memory.read, hk, if_false]
    exact ih hw.2 (by omega)

theorem Memory.read_consCell_same {m : Memory} {a : Nat} {v : Byte}
    (h : m.read a = Config.unlistedByte) : (Memory.consCell a v m).read a = v := by
  unfold Memory.consCell
  split
  · next hv => rw [h, hv]
  · simp [Memory.read]

theorem Memory.read_consCell_other {m : Memory} {a x : Nat} {v : Byte} (h : x ≠ a) :
    (Memory.consCell a v m).read x = m.read x := by
  unfold Memory.consCell
  split
  · rfl
  · simp [Memory.read, Ne.symm h]

theorem Memory.read_write_same_from {m : Memory} {lo a : Nat} {v : Byte} (hw : m.wfFrom lo = true) :
    (m.write a v).read a = v := by
  induction m generalizing lo with
  | nil => exact Memory.read_consCell_same rfl
  | cons c m ih =>
    obtain ⟨k, w⟩ := c
    have hm : Memory.wfFrom (k + 1) m = true := by
      simp only [Memory.wfFrom, Bool.and_eq_true] at hw
      exact hw.2
    simp only [Memory.write]
    split
    · next h =>
      apply Memory.read_consCell_same
      have hk : k ≠ a := by omega
      simp only [Memory.read, hk, if_false]
      exact Memory.read_below hm (by omega)
    · split
      · next _ h => exact Memory.read_consCell_same (Memory.read_below hm (by omega))
      · next _ h =>
        have hk : k ≠ a := fun e => h e.symm
        simp only [Memory.read, hk, if_false]
        exact ih hm

/-- A write is read back (20_memory.md R32, R33). -/
theorem Memory.read_write_same {m : Memory} (hw : m.wf = true) (a : Nat) (v : Byte) :
    (m.write a v).read a = v := Memory.read_write_same_from hw

/-- A write leaves every other address alone (20_memory.md R33). -/
theorem Memory.read_write_other (m : Memory) {a x : Nat} (v : Byte) (h : x ≠ a) :
    (m.write a v).read x = m.read x := by
  induction m with
  | nil => exact Memory.read_consCell_other h
  | cons c m ih =>
    obtain ⟨k, w⟩ := c
    simp only [Memory.write]
    split
    · exact Memory.read_consCell_other h
    · split
      · next _ e =>
        subst e
        rw [Memory.read_consCell_other h]
        simp [Memory.read, Ne.symm h]
      · simp only [Memory.read, ih]

theorem Memory.wfFrom_consCell {m : Memory} {lo a : Nat} {v : Byte} (hlo : lo ≤ a) (ha : a < 65536)
    (hw : m.wfFrom (a + 1) = true) : (Memory.consCell a v m).wfFrom lo = true := by
  unfold Memory.consCell
  split
  · exact Memory.wfFrom_mono (by omega) hw
  · next hv =>
    simp only [Memory.wfFrom, Bool.and_eq_true, decide_eq_true_eq]
    exact ⟨⟨⟨hlo, ha⟩, hv⟩, hw⟩

theorem Memory.wfFrom_write {m : Memory} {lo a : Nat} {v : Byte} (hlo : lo ≤ a) (ha : a < 65536)
    (hw : m.wfFrom lo = true) : (m.write a v).wfFrom lo = true := by
  induction m generalizing lo with
  | nil => exact Memory.wfFrom_consCell hlo ha rfl
  | cons c m ih =>
    obtain ⟨k, w⟩ := c
    have hw' := hw
    simp only [Memory.wfFrom, Bool.and_eq_true, decide_eq_true_eq] at hw'
    obtain ⟨⟨⟨h1, h2⟩, h3⟩, h4⟩ := hw'
    simp only [Memory.write]
    split
    · next h =>
      refine Memory.wfFrom_consCell hlo ha ?_
      simp only [Memory.wfFrom, Bool.and_eq_true, decide_eq_true_eq]
      exact ⟨⟨⟨by omega, h2⟩, h3⟩, h4⟩
    · split
      · next _ e =>
        subst e
        exact Memory.wfFrom_consCell hlo ha h4
      · simp only [Memory.wfFrom, Bool.and_eq_true, decide_eq_true_eq]
        exact ⟨⟨⟨h1, h2⟩, h3⟩, ih (by omega) h4⟩

/-- A write inside the space keeps the canonical form. -/
theorem Memory.wf_write {m : Memory} {a : Nat} (hw : m.wf = true) (ha : a < 65536) (v : Byte) :
    (m.write a v).wf = true := Memory.wfFrom_write (Nat.zero_le a) ha hw

theorem Memory.ext_from {m n : Memory} {lo : Nat} (hm : m.wfFrom lo = true) (hn : n.wfFrom lo = true)
    (h : ∀ a, m.read a = n.read a) : m = n := by
  induction m generalizing n lo with
  | nil =>
    cases n with
    | nil => rfl
    | cons d n =>
      obtain ⟨l, w⟩ := d
      simp only [Memory.wfFrom, Bool.and_eq_true, decide_eq_true_eq] at hn
      have := h l
      simp only [Memory.read, if_true] at this
      exact absurd this.symm hn.1.2
  | cons c m ih =>
    obtain ⟨k, v⟩ := c
    have hm' := hm
    simp only [Memory.wfFrom, Bool.and_eq_true, decide_eq_true_eq] at hm'
    cases n with
    | nil =>
      have := h k
      simp only [Memory.read, if_true] at this
      exact absurd this hm'.1.2
    | cons d n =>
      obtain ⟨l, w⟩ := d
      have hn' := hn
      simp only [Memory.wfFrom, Bool.and_eq_true, decide_eq_true_eq] at hn'
      have hkl : k = l := by
        rcases Nat.lt_trichotomy k l with hlt | heq | hgt
        · have := h k
          simp only [Memory.read, if_true, Nat.ne_of_gt hlt, if_false] at this
          rw [Memory.read_below hn'.2 (by omega)] at this
          exact absurd this hm'.1.2
        · exact heq
        · have := h l
          simp only [Memory.read, if_true, Nat.ne_of_gt hgt, if_false] at this
          rw [Memory.read_below hm'.2 (by omega)] at this
          exact absurd this.symm hn'.1.2
      subst hkl
      have hv : v = w := by simpa [Memory.read] using h k
      subst hv
      congr 1
      refine ih hm'.2 hn'.2 fun a => ?_
      by_cases e : k = a
      · subst e
        rw [Memory.read_below hm'.2 (by omega), Memory.read_below hn'.2 (by omega)]
      · simpa [Memory.read, e] using h a

/-- Canonical memories with the same bytes are the same data. -/
theorem Memory.ext {m n : Memory} (hm : m.wf = true) (hn : n.wf = true)
    (h : ∀ a, m.read a = n.read a) : m = n := Memory.ext_from hm hn h

/-! ## The same for a state's byte view -/

theorem State.storeByte_byteAt_same {s : State} (h : s.mem.wf = true) (a : Word) (v : Byte) :
    (s.storeByte a v).byteAt a = v := Memory.read_write_same h _ _

theorem State.storeByte_byteAt_other (s : State) {a x : Word} (v : Byte) (h : x ≠ a) :
    (s.storeByte a v).byteAt x = s.byteAt x :=
  Memory.read_write_other _ _ (fun e => h (BitVec.eq_of_toNat_eq e))

theorem State.storeByte_wf {s : State} (h : s.mem.wf = true) (a : Word) (v : Byte) :
    (s.storeByte a v).mem.wf = true := Memory.wf_write h a.isLt v

end Sys2Proof.Machine
end

