-- ==== Sys2Proof/Laws/Ops.lean ====
section
/-!
SUPPORT. The micro-operations, each said once: what it gives in the default environment, and everything
it can have done when it completes in any environment.
-/

namespace Sys2Proof.Machine

/-! ## Sequencing -/

@[simp] theorem Micro.bind_ok {α β : Type} (a : α) (s : State) (f : α → State → Micro β) :
    (Micro.ok a s).bind f = f a s := rfl
@[simp] theorem Micro.bind_fault {α β : Type} (r : Fault) (f : α → State → Micro β) :
    (Micro.fault r).bind f = .fault r := rfl
@[simp] theorem Micro.bind_refuse {α β : Type} (r : Refusal) (f : α → State → Micro β) :
    (Micro.refuse r).bind f = .refuse r := rfl
@[simp] theorem Micro.outcome_ok (a : Unit) (s : State) : (Micro.ok a s).outcome = .next s := rfl
@[simp] theorem Micro.outcome_fault (r : Fault) : (Micro.fault r).outcome = .fault r := rfl
@[simp] theorem Micro.outcome_refuse (r : Refusal) : (Micro.refuse r).outcome = .refused r := rfl

/-- A sequence completes when its first part does and then the rest does. -/
theorem Micro.bind_eq_ok {α β : Type} {m : Micro α} {f : α → State → Micro β} {b : β} {t : State}
    (h : m.bind f = .ok b t) : ∃ a u, m = .ok a u ∧ f a u = .ok b t := by
  cases m with
  | ok a u => exact ⟨a, u, rfl, h⟩
  | fault r => cases h
  | refuse r => cases h

/-- A sequence that stops with a fault stopped in its first part or in the rest. -/
theorem Micro.bind_eq_fault {α β : Type} {m : Micro α} {f : α → State → Micro β} {r : Fault}
    (h : m.bind f = .fault r) : m = .fault r ∨ ∃ a u, m = .ok a u ∧ f a u = .fault r := by
  cases m with
  | ok a u => exact .inr ⟨a, u, rfl, h⟩
  | fault r' => exact .inl (by simpa using h)
  | refuse r' => cases h

theorem Micro.outcome_eq_next {m : Micro Unit} {t : State} (h : m.outcome = .next t) :
    m = .ok () t := by
  cases m with
  | ok a u => simpa [Micro.outcome] using h
  | fault r => cases h
  | refuse r => cases h

theorem Micro.outcome_eq_fault {m : Micro Unit} {r : Fault} (h : m.outcome = .fault r) :
    m = .fault r := by
  cases m with
  | ok a u => cases h
  | fault r' => simpa [Micro.outcome] using h
  | refuse r' => cases h

/-! ## In the default environment every micro-operation completes (60_exceptions.md R120, R121) -/

theorem askEnv_plain {α : Type} {s : State} (h : s.Plain) (c : EnvCall) (k : Micro α) :
    askEnv c s k = k := by
  simp [askEnv, h, Env.default]

theorem regionKind_plain {s : State} (h : s.Plain) (a : Word) :
    regionKind s.env.memMap a = .ram := by
  rw [h]; rfl

theorem readMem_plain {s : State} (h : s.Plain) (a : Word) : readMem a s = .ok (s.byteAt a) s := by
  simp [readMem, askEnv_plain h, regionKind_plain h]

theorem writeMem_plain {s : State} (h : s.Plain) (a : Word) (v : Byte) :
    writeMem a v s = .ok () (s.storeByte a v) := by
  simp [writeMem, askEnv_plain h, regionKind_plain h]

theorem readMem16_plain {s : State} (h : s.Plain) (a : Word) :
    readMem16 a s = .ok (s.wordAt a) s := by
  simp [readMem16, readMem_plain h, State.wordAt]

theorem writeMem16_plain {s : State} (h : s.Plain) (a v : Word) :
    writeMem16 a v s =
      .ok () ((s.storeByte (a + 1#16) (v.extractLsb' 8 8)).storeByte a (v.extractLsb' 0 8)) := by
  have h' : (s.storeByte (a + 1#16) (v.extractLsb' 8 8)).Plain := h
  simp only [writeMem16, writeMem_plain h, Micro.bind_ok, writeMem_plain h']

theorem fetchByte_plain {s : State} (h : s.Plain) :
    fetchByte s = .ok (s.byteAt s.pc) (s.setPc (s.pc + 1#16)) := by
  simp [fetchByte, readMem_plain h]

theorem fetchWord_plain {s : State} (h : s.Plain) :
    fetchWord s = .ok (s.wordAt s.pc) (s.setPc (s.pc + 2#16)) := by
  simp [fetchWord, readMem16_plain h]

theorem sp_sub_two_add_one (a : Word) : a - 2#16 + 1#16 = a - 1#16 := by bv_omega

theorem push16_plain {s : State} (h : s.Plain) (v : Word) :
    push16 v s =
      .ok () (((s.storeByte (s.sp - 1#16) (v.extractLsb' 8 8)).storeByte (s.sp - 2#16)
        (v.extractLsb' 0 8)).setSp (s.sp - 2#16)) := by
  simp only [push16, writeMem16_plain h, sp_sub_two_add_one, Micro.bind_ok, State.storeByte_sp]

theorem pop16_plain {s : State} (h : s.Plain) :
    pop16 s = .ok (s.wordAt s.sp) (s.setSp (s.sp + 2#16)) := by
  simp [pop16, readMem16_plain h]

theorem condTrue_plain {s : State} (h : s.Plain) (cc : Cond) :
    condTrue cc s = .ok (condHolds cc s.flags) s := by
  simp [condTrue, readFlag, askEnv_plain h, condHolds]

theorem whenCond_plain {s : State} (h : s.Plain) (cc : Cond) (effect : State → Micro Unit) :
    whenCond cc effect s = if condHolds cc s.flags then effect s else .ok () s := by
  simp [whenCond, condTrue_plain h]

theorem readCount_plain {s : State} (h : s.Plain) : readCount s = .ok s.b s := askEnv_plain h ..

theorem writeCount_plain {s : State} (h : s.Plain) (n : Byte) : writeCount n s = .ok () (s.setB n) :=
  askEnv_plain h ..

theorem indexedJump_plain {s : State} (h : s.Plain) (x : IndexReg) :
    indexedJump x s = .ok () (s.setPc (s.index x)) := by
  simp [indexedJump, indexValue, askEnv_plain h, loadPc]

theorem endNmi_plain {s : State} (h : s.Plain) : endNmi s = .ok () (s.setInNmi false) :=
  askEnv_plain h ..

theorem subCall_eq_plain {s : State} (h : s.Plain) (addr : Word) :
    subCall addr s =
      .ok () ((((s.storeByte (s.sp - 1#16) (s.pc.extractLsb' 8 8)).storeByte (s.sp - 2#16)
        (s.pc.extractLsb' 0 8)).setSp (s.sp - 2#16)).setPc addr) := by
  simp only [subCall, push16_plain h, Micro.bind_ok, loadPc]

theorem subReturn_plain {s : State} (h : s.Plain) :
    subReturn s = .ok () ((s.setSp (s.sp + 2#16)).setPc (s.wordAt s.sp)) := by
  simp only [subReturn, pop16_plain h, Micro.bind_ok, loadPc]

theorem nmiReturn_plain {s : State} (h : s.Plain) :
    nmiReturn s = .ok () (((s.setSp (s.sp + 2#16)).setPc (s.wordAt s.sp)).setInNmi false) := by
  have h' : ((s.setSp (s.sp + 2#16)).setPc (s.wordAt s.sp)).Plain := h
  simp only [nmiReturn, subReturn_plain h, Micro.bind_ok, endNmi_plain h']

/-- A decrement, then a jump or nothing: the end of `DJNZ` (44_djnz.md R110). -/
theorem countAndJump_plain {s : State} (h : s.Plain) (ofs : Byte) :
    ((readCount s).bind fun c s => (writeCount (decrement8 c) s).bind fun _ s =>
      if decrement8 c = 0#8 then .ok () s else relJump ofs s) =
      .ok () ((s.setB (decrement8 s.b)).setPc (if decrement8 s.b = 0#8 then s.pc else s.pc + sext16 ofs)) := by
  simp only [readCount_plain h, Micro.bind_ok, writeCount_plain h, relJump]
  split <;> rfl

/-! ## What a micro-operation can have done when it completes, in any environment -/

theorem askEnv_eq_ok {α : Type} {c : EnvCall} {s t : State} {k : Micro α} {a : α}
    (h : askEnv c s k = .ok a t) : k = .ok a t ∧ c ∉ s.env.failing := by
  unfold askEnv at h
  split at h
  · cases h
  · next hc => exact ⟨h, hc⟩

theorem readMem_eq_ok {a : Word} {s t : State} {v : Byte} (h : readMem a s = .ok v t) :
    t = s ∧ v = s.byteAt a := by
  have h := (askEnv_eq_ok h).1
  split at h <;> cases h <;> exact ⟨rfl, rfl⟩

/-- A completed write stored its byte, or met ROM and stored nothing. -/
theorem writeMem_eq_ok {a : Word} {v : Byte} {s t : State} (h : writeMem a v s = .ok () t) :
    t = s.storeByte a v ∨ t = s := by
  have h := (askEnv_eq_ok h).1
  split at h <;> cases h
  · exact .inl rfl
  · exact .inr rfl

theorem readMem16_eq_ok {a : Word} {s t : State} {v : Word} (h : readMem16 a s = .ok v t) :
    t = s ∧ v = s.wordAt a := by
  obtain ⟨lo, u, h1, h⟩ := Micro.bind_eq_ok h
  obtain ⟨rfl, rfl⟩ := readMem_eq_ok h1
  obtain ⟨hi, w, h2, h⟩ := Micro.bind_eq_ok h
  obtain ⟨rfl, rfl⟩ := readMem_eq_ok h2
  cases h
  exact ⟨rfl, rfl⟩

/-- A completed single write changes memory alone, at its address alone, and keeps the canonical form. -/
theorem writeMem_frame {a : Word} {v : Byte} {s t : State} (h : writeMem a v s = .ok () t) :
    t = s.setMem t.mem ∧ (∀ x, x ≠ a → t.byteAt x = s.byteAt x) ∧
      (s.mem.wf = true → t.mem.wf = true) := by
  rcases writeMem_eq_ok h with rfl | rfl
  · exact ⟨rfl, fun x hx => State.storeByte_byteAt_other s v hx, fun hw => State.storeByte_wf hw a v⟩
  · exact ⟨rfl, fun x _ => rfl, id⟩

/-- A completed 2-byte write changes memory alone, at its two addresses alone. -/
theorem writeMem16_frame {a v : Word} {s t : State} (h : writeMem16 a v s = .ok () t) :
    t = s.setMem t.mem ∧ (∀ x, x ≠ a → x ≠ a + 1#16 → t.byteAt x = s.byteAt x) ∧
      (s.mem.wf = true → t.mem.wf = true) := by
  obtain ⟨_, u, h1, h2⟩ := Micro.bind_eq_ok h
  obtain ⟨e1, f1, w1⟩ := writeMem_frame h1
  obtain ⟨e2, f2, w2⟩ := writeMem_frame h2
  refine ⟨?_, fun x ha hb => (f2 x ha).trans (f1 x hb), fun hw => w2 (w1 hw)⟩
  rw [e2, e1]
  rfl

/-- A completed push changes memory at the two bytes below the old `SP`, and moves `SP` down by 2. -/
theorem push16_frame {v : Word} {s t : State} (h : push16 v s = .ok () t) :
    t = (s.setMem t.mem).setSp (s.sp - 2#16) ∧
      (∀ x, x ≠ s.sp - 2#16 → x ≠ s.sp - 1#16 → t.byteAt x = s.byteAt x) ∧
      (s.mem.wf = true → t.mem.wf = true) := by
  obtain ⟨_, u, h1, h2⟩ := Micro.bind_eq_ok h
  obtain ⟨e, f, w⟩ := writeMem16_frame h1
  rw [sp_sub_two_add_one] at f
  cases h2
  refine ⟨?_, f, w⟩
  rw [e]
  rfl

theorem pop16_eq_ok {s t : State} {v : Word} (h : pop16 s = .ok v t) :
    v = s.wordAt s.sp ∧ t = s.setSp (s.sp + 2#16) := by
  obtain ⟨w, u, h1, h2⟩ := Micro.bind_eq_ok h
  obtain ⟨rfl, rfl⟩ := readMem16_eq_ok h1
  cases h2
  exact ⟨rfl, rfl⟩

theorem subCall_frame {addr : Word} {s t : State} (h : subCall addr s = .ok () t) :
    t = ((s.setMem t.mem).setSp (s.sp - 2#16)).setPc addr ∧
      (∀ x, x ≠ s.sp - 2#16 → x ≠ s.sp - 1#16 → t.byteAt x = s.byteAt x) ∧
      (s.mem.wf = true → t.mem.wf = true) := by
  obtain ⟨_, u, h1, h2⟩ := Micro.bind_eq_ok h
  obtain ⟨e, f, w⟩ := push16_frame h1
  cases h2
  refine ⟨?_, f, w⟩
  conv_lhs => rw [e]
  rfl

theorem subReturn_eq_ok {s t : State} (h : subReturn s = .ok () t) :
    t = (s.setSp (s.sp + 2#16)).setPc (s.wordAt s.sp) := by
  obtain ⟨v, u, h1, h2⟩ := Micro.bind_eq_ok h
  obtain ⟨rfl, rfl⟩ := pop16_eq_ok h1
  cases h2
  rfl

theorem endNmi_eq_ok {s t : State} (h : endNmi s = .ok () t) : t = s.setInNmi false := by
  cases (askEnv_eq_ok h).1
  rfl

theorem nmiReturn_eq_ok {s t : State} (h : nmiReturn s = .ok () t) :
    t = ((s.setSp (s.sp + 2#16)).setPc (s.wordAt s.sp)).setInNmi false := by
  obtain ⟨_, u, h1, h2⟩ := Micro.bind_eq_ok h
  rw [endNmi_eq_ok h2, subReturn_eq_ok h1]

theorem fetchByte_eq_ok {s t : State} {v : Byte} (h : fetchByte s = .ok v t) :
    v = s.byteAt s.pc ∧ t = s.setPc (s.pc + 1#16) := by
  obtain ⟨w, u, h1, h2⟩ := Micro.bind_eq_ok h
  obtain ⟨rfl, rfl⟩ := readMem_eq_ok h1
  cases h2
  exact ⟨rfl, rfl⟩

theorem fetchWord_eq_ok {s t : State} {v : Word} (h : fetchWord s = .ok v t) :
    v = s.wordAt s.pc ∧ t = s.setPc (s.pc + 2#16) := by
  obtain ⟨w, u, h1, h2⟩ := Micro.bind_eq_ok h
  obtain ⟨rfl, rfl⟩ := readMem16_eq_ok h1
  cases h2
  exact ⟨rfl, rfl⟩

theorem indexedJump_eq_ok {x : IndexReg} {s t : State} (h : indexedJump x s = .ok () t) :
    t = s.setPc (s.index x) := by
  obtain ⟨v, u, h1, h2⟩ := Micro.bind_eq_ok h
  cases (askEnv_eq_ok h1).1
  cases h2
  rfl

theorem condTrue_eq_ok {cc : Cond} {s t : State} {v : Bool} (h : condTrue cc s = .ok v t) :
    v = condHolds cc s.flags ∧ t = s := by
  obtain ⟨f, u, h1, h2⟩ := Micro.bind_eq_ok h
  cases (askEnv_eq_ok h1).1
  cases h2
  exact ⟨rfl, rfl⟩

/-- A completed conditional part had its effect, or its condition was false and nothing happened. -/
theorem whenCond_eq_ok {cc : Cond} {effect : State → Micro Unit} {s t : State}
    (h : whenCond cc effect s = .ok () t) :
    (condHolds cc s.flags = true ∧ effect s = .ok () t) ∨ (condHolds cc s.flags = false ∧ t = s) := by
  obtain ⟨v, u, h1, h2⟩ := Micro.bind_eq_ok h
  obtain ⟨rfl, rfl⟩ := condTrue_eq_ok h1
  cases hc : condHolds cc u.flags with
  | true => exact .inl ⟨rfl, by simpa [hc] using h2⟩
  | false =>
    rw [hc] at h2
    cases h2
    exact .inr ⟨rfl, rfl⟩

end Sys2Proof.Machine
end

