-- ==== Sys2Proof/Laws/Fetch.lean ====
section
/-!
SUPPORT. The decoder on longer strings of bytes, and the opcode fetch said once: what it does with bytes that
decode to nothing yet, and everything it can have done when it completes.
-/

namespace Sys2Proof

/-! ## The decoder on longer strings -/

/-- Bytes that ask for more do so from the first on. -/
theorem decodeWith_needMore_of_append {a b : List Byte} {x : IndexReg}
    (h : decodeWith x (a ++ b) = .needMore) : decodeWith x a = .needMore := by
  induction a generalizing x with
  | nil => rfl
  | cons c a ih =>
    simp only [List.cons_append, decodeWith] at h ⊢
    split at h
    · exact ih h
    · split at h
      · next hE =>
        rw [if_pos hE]
        cases a with
        | nil => rfl
        | cons d a => simp only [List.cons_append, decodeEd] at h; split at h <;> cases h
      · split at h <;> cases h

/-- An operation found is found whatever follows. -/
theorem decodeWith_op_append {bytes rest more : List Byte} {x : IndexReg} {i : Instr}
    (h : decodeWith x bytes = .op i rest) : decodeWith x (bytes ++ more) = .op i (rest ++ more) := by
  induction bytes generalizing x with
  | nil => cases h
  | cons c bytes ih =>
    simp only [List.cons_append, decodeWith] at h ⊢
    split at h
    · exact ih h
    · split at h
      · next hE =>
        rw [if_pos hE]
        cases bytes with
        | nil => cases h
        | cons d bytes =>
          simp only [List.cons_append, decodeEd] at h ⊢
          split at h <;> cases h
          rfl
      · next hE =>
        rw [if_neg hE]
        split at h <;> cases h
        rfl

/-- A rejection stands whatever follows. -/
theorem decodeWith_reject_append {bytes more : List Byte} {x : IndexReg} {r : Reject}
    (h : decodeWith x bytes = .reject r) : decodeWith x (bytes ++ more) = .reject r := by
  induction bytes generalizing x with
  | nil => cases h
  | cons c bytes ih =>
    simp only [List.cons_append, decodeWith] at h ⊢
    split at h
    · exact ih h
    · split at h
      · next hE =>
        rw [if_pos hE]
        cases bytes with
        | nil => cases h
        | cons d bytes =>
          simp only [List.cons_append, decodeEd] at h ⊢
          split at h <;> cases h
          rfl
      · next hE =>
        rw [if_neg hE]
        split at h <;> cases h
        rfl

/-- An operation whose last opcode byte has just been read leaves nothing over. -/
theorem decodeWith_snoc_op {bytes rest : List Byte} {b : Byte} {x : IndexReg} {i : Instr}
    (h : decodeWith x bytes = .needMore) (h' : decodeWith x (bytes ++ [b]) = .op i rest) : rest = [] := by
  induction bytes generalizing x with
  | nil =>
    simp only [List.nil_append, decodeWith] at h'
    split at h'
    · cases h'
    · split at h'
      · cases h'
      · split at h' <;> cases h'
        rfl
  | cons c bytes ih =>
    simp only [List.cons_append, decodeWith] at h h'
    split at h
    · next y hy => simp only [hy] at h'; exact ih h h'
    · next hy =>
      simp only [hy] at h'
      split at h
      · next hE =>
        rw [if_pos hE] at h'
        cases bytes with
        | nil =>
          simp only [List.nil_append, decodeEd] at h'
          split at h' <;> cases h'
          rfl
        | cons d bytes =>
          simp only [decodeEd] at h
          split at h <;> cases h
      · split at h <;> cases h

/-- A string of index prefixes hands on to what follows, under the register of the last of them. -/
theorem decodeWith_prefixes {pre : List Byte} (hp : ∀ p ∈ pre, p = 0xDD ∨ p = 0xFD) (x : IndexReg) :
    ∃ y, ∀ rest, decodeWith x (pre ++ rest) = decodeWith y rest := by
  induction pre generalizing x with
  | nil => exact ⟨x, fun _ => rfl⟩
  | cons c pre ih =>
    obtain ⟨z, hz⟩ : ∃ z, indexPrefix c = some z := by
      rcases hp c (by simp) with rfl | rfl
      · exact ⟨.ix, rfl⟩
      · exact ⟨.iy, rfl⟩
    obtain ⟨y, hy⟩ := ih (fun p h => hp p (by simp [h])) z
    exact ⟨y, fun rest => by rw [List.cons_append, decodeWith, hz]; exact hy rest⟩

/-- Where the decoder asks for more before a byte and answers after it, the answer before was to ask. -/
theorem decodeWith_needMore_or {bytes : List Byte} (x : IndexReg) :
    decodeWith x bytes = .needMore ∨ ∃ pre b post, bytes = pre ++ b :: post ∧
      decodeWith x pre = .needMore ∧ decodeWith x (pre ++ [b]) ≠ .needMore := by
  induction bytes using List.reverseRecOn with
  | nil => exact .inl rfl
  | append_singleton bytes b ih =>
    rcases ih with h | ⟨pre, c, post, rfl, h1, h2⟩
    · by_cases hb : decodeWith x (bytes ++ [b]) = .needMore
      · exact .inl hb
      · exact .inr ⟨bytes, b, [], rfl, h, hb⟩
    · exact .inr ⟨pre, c, post ++ [b], by simp, h1, h2⟩

namespace Machine

/-! ## The opcode fetch -/

theorem bytesAt_setPc (s : State) (v a : Word) (bytes : List Byte) :
    BytesAt (s.setPc v) a bytes ↔ BytesAt s a bytes := by
  induction bytes generalizing a with
  | nil => exact Iff.rfl
  | cons b bytes ih => simp only [BytesAt, State.setPc_byteAt, ih]

theorem pc_after_cons (a : Word) (b : Byte) (bytes : List Byte) :
    a + 1#16 + BitVec.ofNat 16 bytes.length = a + BitVec.ofNat 16 (b :: bytes).length := by
  rw [List.length_cons, BitVec.ofNat_add]
  bv_omega

/-- The fetch goes past bytes that decode to nothing yet. -/
theorem fetchOpcodeAfter_skip {todo seen : List Byte} {s : State} (fuel : Nat) (hp : s.Plain)
    (hd : decode (seen ++ todo) = .needMore) (hb : BytesAt s s.pc todo) :
    fetchOpcodeAfter (fuel + todo.length) seen s =
      fetchOpcodeAfter fuel (seen ++ todo) (s.setPc (s.pc + BitVec.ofNat 16 todo.length)) := by
  induction todo generalizing seen s with
  | nil => simp
  | cons b todo ih =>
    obtain ⟨hb, hbs⟩ := hb
    rw [← List.singleton_append, ← List.append_assoc] at hd
    have h1 : decode (seen ++ [b]) = .needMore := decodeWith_needMore_of_append hd
    rw [List.length_cons, ← Nat.add_assoc, fetchOpcodeAfter, fetchByte_plain hp, Micro.bind_ok, hb, h1]
    simp only
    have hp' : (s.setPc (s.pc + 1#16)).Plain := hp
    rw [ih hp' hd ((bytesAt_setPc ..).2 hbs), List.append_assoc, List.singleton_append,
      State.setPc_setPc, State.setPc_pc, pc_after_cons s.pc b todo, List.length_cons]

/-- What the fetch does with its next byte. -/
theorem fetchOpcodeAfter_succ_plain {seen : List Byte} {s : State} (fuel : Nat) (hp : s.Plain) :
    fetchOpcodeAfter (fuel + 1) seen s =
      match decode (seen ++ [s.byteAt s.pc]) with
      | .op i _ => .ok i (s.setPc (s.pc + 1#16))
      | .needMore => fetchOpcodeAfter fuel (seen ++ [s.byteAt s.pc]) (s.setPc (s.pc + 1#16))
      | .reject r => .refuse (.undecoded r) := by
  have h : fetchOpcodeAfter (fuel + 1) seen s = (fetchByte s).bind _ := rfl
  rw [h, fetchByte_plain hp]
  exact (Micro.bind_ok ..).trans (by cases decode (seen ++ [s.byteAt s.pc]) <;> rfl)

/-- A completed fetch, in any environment, has read bytes at `PC` that decode to the operation, the last of
them being the first at which the decoder answers. -/
theorem fetchOpcodeAfter_eq_ok {fuel : Nat} {seen : List Byte} {s t : State} {i : Instr}
    (h : fetchOpcodeAfter fuel seen s = .ok i t) :
    ∃ pre b rest, decode (seen ++ pre ++ [b]) = .op i rest ∧ (pre = [] ∨ decode (seen ++ pre) = .needMore) ∧
      BytesAt s s.pc (pre ++ [b]) ∧ t = s.setPc (s.pc + BitVec.ofNat 16 (pre ++ [b]).length) := by
  induction fuel generalizing seen s with
  | zero => cases h
  | succ fuel ih =>
    obtain ⟨b, u, h1, h2⟩ := Micro.bind_eq_ok h
    obtain ⟨rfl, rfl⟩ := fetchByte_eq_ok h1
    split at h2
    · next i' rest hd =>
      cases h2
      exact ⟨[], _, rest, by simpa using hd, .inl rfl, ⟨rfl, trivial⟩, rfl⟩
    · next hd =>
      obtain ⟨pre, b, rest, g1, g2, g3, rfl⟩ := ih h2
      refine ⟨s.byteAt s.pc :: pre, b, rest, by simpa using g1, .inr ?_, ⟨rfl, (bytesAt_setPc ..).1 g3⟩, ?_⟩
      · rcases g2 with rfl | g2
        · exact hd
        · simpa using g2
      · rw [List.cons_append, State.setPc_setPc, State.setPc_pc, pc_after_cons]
    · cases h2

end Machine

end Sys2Proof
end

