-- ==== Sys2Proof/Laws/PerInstr.lean ====
section
/-!
SUPPORT. Lemmas made per constructor of Instr. Family Lengths: an instruction's bytes are as many as the
table of 30_encoding.md R62 says.
-/

namespace Sys2Proof.Laws.Lengths

/-- With any operand of its format, the encoded instruction has the table's length. -/
def Statement (i : Instr) : Prop :=
  ∀ o : Operand, o.fits i.format = true → (encodeWhole i o).length = i.lengthInBytes

theorem djnz : Statement .djnz := by
  intro o h
  cases o <;> first | rfl | cases h

theorem jr : Statement .jr := by
  intro o h
  cases o <;> first | rfl | cases h

theorem jrCc (cc : Cond) : Statement (.jrCc cc) := by
  intro o h
  cases o <;> first | rfl | cases h

theorem retCc (cc : Cond) : Statement (.retCc cc) := by
  intro o h
  cases o <;> first | rfl | cases h

theorem jpCc (cc : Cond) : Statement (.jpCc cc) := by
  intro o h
  cases o <;> first | rfl | cases h

theorem jp : Statement .jp := by
  intro o h
  cases o <;> first | rfl | cases h

theorem callCc (cc : Cond) : Statement (.callCc cc) := by
  intro o h
  cases o <;> first | rfl | cases h

theorem rst (v : Byte) : Statement (.rst v) := by
  intro o h
  cases o <;> first | rfl | cases h

theorem ret : Statement .ret := by
  intro o h
  cases o <;> first | rfl | cases h

theorem call : Statement .call := by
  intro o h
  cases o <;> first | rfl | cases h

theorem jpHl : Statement .jpHl := by
  intro o h
  cases o <;> first | rfl | cases h

theorem jpIx : Statement .jpIx := by
  intro o h
  cases o <;> first | rfl | cases h

theorem jpIy : Statement .jpIy := by
  intro o h
  cases o <;> first | rfl | cases h

theorem retn : Statement .retn := by
  intro o h
  cases o <;> first | rfl | cases h

theorem reti : Statement .reti := by
  intro o h
  cases o <;> first | rfl | cases h

end Sys2Proof.Laws.Lengths
end

