-- ==== Sys2Proof/Tests/Slice0.lean ====
section
/-!
SUPPORT. The model's own tests, each about one step or one word, and for every statement of
Certificates/Slice0/Obligations.lean that has hypotheses a witness that meets them together. Expected
results are those of spec/95_test_vectors.md (the row's name stands in the docstring) or written out from
the encodings of 30_encoding.md R53, R62.
-/

namespace Sys2Proof.Tests

open Sys2Proof Sys2Proof.Machine

/-! ## A small state -/

/-- The reset state with a program counter, a stack pointer and some bytes of memory (rising, not 0). -/
def at_ (pc sp : Word) (mem : List (Nat × Byte)) : State := ((State.reset.setPc pc).setSp sp).setMem mem

/-- The same with flags `Z C PV S`. -/
def withFlags (s : State) (z c pv sf : Bool) : State := { s with flags := ⟨z, c, pv, sf⟩ }

/-- The same with one environment operation that fails. -/
def failing (call : EnvCall) (s : State) : State := { s with env := ⟨[call], []⟩ }

/-- The same on a platform with one region that is no RAM. -/
def withRegion (r : Region) (s : State) : State := { s with env := ⟨[], [r]⟩ }

/-- The state an outcome goes on with. -/
def after (o : Host.Outcome State Fault Refusal) : Option State :=
  match o with
  | .next s => some s
  | .fault _ => none
  | .refused _ => none

/-- `PC` after an operation. -/
def pcAfter (i : Instr) (s : State) : Option Word := (after (exec i s)).map State.pc

/-- `PC`, `SP` and the bytes at some addresses after an operation. -/
def stackAfter (i : Instr) (s : State) (addresses : List Word) : Option (Word × Word × List Byte) :=
  (after (exec i s)).map fun t => (t.pc, t.sp, addresses.map t.byteAt)

/-! ## Well-formedness: each check refuses an ill-formed term (30_encoding.md R62, C6, D10) -/

theorem test_wellFormed_jrCc :
    (Instr.jrCc ⟨.pv, false⟩).wellFormed = false ∧ (Instr.jrCc ⟨.s, true⟩).wellFormed = false ∧
    (Instr.jrCc ⟨.c, true⟩).wellFormed = true := by decide
theorem test_wellFormed_rst :
    (Instr.rst 0xAB).wellFormed = false ∧ (Instr.rst 0x01).wellFormed = false ∧
    (Instr.rst 0x40).wellFormed = false ∧ (Instr.rst 0x38).wellFormed = true := by decide
theorem test_operand_fits :
    Operand.absent.fits .d = false ∧ Operand.absent.fits .nn = false ∧
    (Operand.disp 1).fits .n = false ∧ (Operand.disp 1).fits .nn = false ∧
    (Operand.addr 1).fits .n = false ∧ (Operand.addr 1).fits .d = false := by decide

/-! ## Decoding: every constructor's word, written out from R62 -/

theorem test_decode_djnz : decodeWhole [0b00010000, 0xFD] = some (.djnz, .disp 0xFD, []) := by decide
theorem test_decode_jr : decodeWhole [0b00011000, 0x05] = some (.jr, .disp 0x05, []) := by decide
/-- `001cc000`. -/
theorem test_decode_jrCc :
    [0b00100000, 0b00101000, 0b00110000, 0b00111000].map (fun b => decode [b]) =
      [.op (.jrCc ⟨.z, false⟩) [], .op (.jrCc ⟨.z, true⟩) [], .op (.jrCc ⟨.c, false⟩) [],
       .op (.jrCc ⟨.c, true⟩) []] := by decide
/-- `11ccc000`: C0 C8 D0 D8 E0 E8 F0 F8 (C40 to C47). -/
theorem test_decode_retCc :
    [0xC0, 0xC8, 0xD0, 0xD8, 0xE0, 0xE8, 0xF0, 0xF8].map (fun b => decode [b]) =
      [.op (.retCc ⟨.z, false⟩) [], .op (.retCc ⟨.z, true⟩) [], .op (.retCc ⟨.c, false⟩) [],
       .op (.retCc ⟨.c, true⟩) [], .op (.retCc ⟨.pv, false⟩) [], .op (.retCc ⟨.pv, true⟩) [],
       .op (.retCc ⟨.s, false⟩) [], .op (.retCc ⟨.s, true⟩) []] := by decide
/-- `11ccc010`: C20 to C27. -/
theorem test_decode_jpCc :
    [0xC2, 0xCA, 0xD2, 0xDA, 0xE2, 0xEA, 0xF2, 0xFA].map (fun b => decodeWhole [b, 0x00, 0x80]) =
      [⟨.z, false⟩, ⟨.z, true⟩, ⟨.c, false⟩, ⟨.c, true⟩, ⟨.pv, false⟩, ⟨.pv, true⟩, ⟨.s, false⟩,
       ⟨.s, true⟩].map (fun cc => some (Instr.jpCc cc, Operand.addr 0x8000, [])) := by decide
theorem test_decode_jp : decodeWhole [0b11000011, 0x34, 0x12] = some (.jp, .addr 0x1234, []) := by decide
/-- `11ccc100`: C30 to C37. -/
theorem test_decode_callCc :
    [0xC4, 0xCC, 0xD4, 0xDC, 0xE4, 0xEC, 0xF4, 0xFC].map (fun b => decodeWhole [b, 0x00, 0x20]) =
      [⟨.z, false⟩, ⟨.z, true⟩, ⟨.c, false⟩, ⟨.c, true⟩, ⟨.pv, false⟩, ⟨.pv, true⟩, ⟨.s, false⟩,
       ⟨.s, true⟩].map (fun cc => some (Instr.callCc cc, Operand.addr 0x2000, [])) := by decide
/-- L7: the eight restart bytes. -/
theorem test_decode_rst :
    [0xC7, 0xCF, 0xD7, 0xDF, 0xE7, 0xEF, 0xF7, 0xFF].map (fun b => decode [b]) =
      [.op (.rst 0x00) [], .op (.rst 0x08) [], .op (.rst 0x10) [], .op (.rst 0x18) [],
       .op (.rst 0x20) [], .op (.rst 0x28) [], .op (.rst 0x30) [], .op (.rst 0x38) []] := by decide
theorem test_decode_ret : decodeWhole [0b11001001, 0x55] = some (.ret, .absent, [0x55]) := by decide
theorem test_decode_call : decodeWhole [0b11001101, 0x00, 0x20] = some (.call, .addr 0x2000, []) := by decide
theorem test_decode_jpHl : decode [0b11101001] = .op .jpHl [] := by decide
theorem test_decode_jpIx : decode [0xDD, 0b11101001] = .op .jpIx [] := by decide
theorem test_decode_jpIy : decode [0xFD, 0b11101001] = .op .jpIy [] := by decide
theorem test_decode_retn : decode [0xED, 0b01000101] = .op .retn [] := by decide
theorem test_decode_reti : decode [0xED, 0b01001101] = .op .reti [] := by decide
/-- Bytes that are no control transfer (00_scope.md section 3.2), by name. -/
theorem test_decode_other_bytes :
    decode [0x00] = .reject (.notControlTransfer 0x00) ∧ decode [0x76] = .reject (.notControlTransfer 0x76) ∧
    decode [0xCB] = .reject (.notControlTransfer 0xCB) ∧
    decode [0xED, 0x44] = .reject (.notControlTransferEd 0x44) ∧ decode [0xED] = .needMore := by decide

/-! ## The select word (X1 to X4, the table at the head of 95_test_vectors.md) -/

theorem test_cmd_fields :
    decodeCmd 0x0000 .hl = some .jr ∧ decodeCmd 0x0900 .hl = some (.jrCc ⟨.z, true⟩) ∧
    decodeCmd 0x1000 .hl = some .jp ∧ decodeCmd 0x1F00 .hl = some (.jpCc ⟨.s, true⟩) ∧
    decodeCmd 0x2000 .ix = some .jpIx ∧ decodeCmd 0x2800 .hl = some .call ∧
    decodeCmd 0x3400 .hl = some (.callCc ⟨.pv, false⟩) ∧ decodeCmd 0x38AB .hl = some (.rst 0xAB) := by decide
theorem test_cmd_returns_and_reserved :
    decodeCmd 0x4B00 .hl = some (.retCc ⟨.c, true⟩) ∧ decodeCmd 0x5000 .hl = some .reti ∧
    decodeCmd 0x5800 .hl = some .retn ∧ decodeCmd 0x6000 .hl = some .djnz ∧
    decodeCmd 0x40FF .hl = some .ret ∧ decodeCmd 0x0700 .hl = some .jr ∧
    decodeCmd 0x6800 .hl = none ∧ decodeCmd 0x7FFF .hl = none := by decide

/-! ## The table's numbering, and the first instruction after reset -/

theorem test_table_words :
    decodeTableWord 8 0x10 = some .djnz ∧ decodeTableWord 8 0x18 = some .jr ∧
    decodeTableWord 16 0xFE18 = some .jr ∧ decodeTableWord 24 0x1234C3 = some .jp ∧
    decodeTableWord 16 0xDDE9 = some .jpIx ∧ decodeTableWord 16 0xE9DD = some .jpIx ∧
    decodeTableWord 16 0xED4D = some .reti ∧ decodeTableWord 16 0x45ED = some .retn := by decide
theorem test_first_step_after_reset :
    (after (step (State.reset.withFetchWord 8 0xFF))).map (fun t => (t.pc, t.sp, t.byteAt 0xFFFE)) =
      some (0x0038, 0xFFFE, 0x01) := by rfl

/-! ## One operation each, from 95_test_vectors.md -/

/-- A2 to A4, A6, A11: the largest displacements forward and backward, borrow and wrap. -/
theorem test_relJump :
    ([(0x0100, 0x7F, 0x017F), (0x0100, 0x80, 0x0080), (0x0100, 0xFF, 0x00FF), (0xFFFF, 0x01, 0x0000),
        (0x007F, 0x80, 0xFFFF)] : List (Word × Byte × Word)).all
      (fun r => decide ((after (relJump r.2.1 (at_ r.1 0 [])).outcome).map State.pc = some r.2.2)) = true := by
  decide
/-- J2, J3, J6, J7. -/
theorem test_jr :
    pcAfter .jr (at_ 0x0201 0 [(0x0201, 0xFB)]) = some 0x01FD ∧
    pcAfter .jr (at_ 0x0201 0 [(0x0201, 0xFE)]) = some 0x0200 ∧
    pcAfter .jr (at_ 0xFFFF 0 [(0xFFFF, 0x10)]) = some 0x0010 ∧
    pcAfter .jr (at_ 0x0000 0 [(0x0000, 0x80)]) = some 0xFF81 := by decide
/-- C5 (taken), C6 (not taken), C9, C12. -/
theorem test_jrCc :
    pcAfter (.jrCc ⟨.c, false⟩) (withFlags (at_ 0x0301 0 [(0x0301, 0xFA)]) true false true true) = some 0x02FC ∧
    pcAfter (.jrCc ⟨.c, false⟩) (withFlags (at_ 0x0301 0 [(0x0301, 0xFA)]) false true false false) = some 0x0302 ∧
    pcAfter (.jrCc ⟨.pv, false⟩) (withFlags (at_ 0x0301 0 [(0x0301, 0xFA)]) true true false true) = some 0x02FC ∧
    pcAfter (.jrCc ⟨.s, true⟩) (withFlags (at_ 0x0301 0 [(0x0301, 0xFA)]) true true true false) = some 0x0302 := by
  decide
/-- K1, K6. -/
theorem test_jp :
    pcAfter .jp (at_ 0x0101 0 [(0x0101, 0x34), (0x0102, 0x12)]) = some 0x1234 ∧
    pcAfter .jp (at_ 0xFFFF 0 [(0x0000, 0xAB), (0xFFFF, 0xCD)]) = some 0xABCD := by decide
/-- C25 (taken), C26 (not taken), C28 (across the wrap). -/
theorem test_jpCc :
    pcAfter (.jpCc ⟨.pv, true⟩) (withFlags (at_ 0x0101 0 [(0x0102, 0x80)]) false false true false) = some 0x8000 ∧
    pcAfter (.jpCc ⟨.s, false⟩) (withFlags (at_ 0x0101 0 [(0x0102, 0x80)]) false false false true) = some 0x0103 ∧
    pcAfter (.jpCc ⟨.c, true⟩) (at_ 0xFFFF 0 [(0x0000, 0x80)]) = some 0x0001 := by decide
/-- I1: memory at the register's value is not read. -/
theorem test_jpHl :
    pcAfter .jpHl { at_ 0x0001 0 [(0xBEF0, 0x10)] with hl := 0xBEEF, ix := 0x1111, iy := 0x2222 } =
      some 0xBEEF := by decide
/-- I5: no displacement. -/
theorem test_jpIx :
    pcAfter .jpIx { at_ 0x0002 0 [(0x0002, 0x05)] with hl := 0xBEEF, ix := 0x1234, iy := 0x2222 } =
      some 0x1234 := by decide
/-- I3. -/
theorem test_jpIy :
    pcAfter .jpIy { at_ 0x0002 0 [] with hl := 0xBEEF, ix := 0x1234, iy := 0xFFFF } = some 0xFFFF := by decide
/-- L1 and L3. -/
theorem test_call :
    stackAfter .call (at_ 0x0101 0x9000 [(0x0102, 0x20)]) [0x8FFF, 0x8FFE] =
      some (0x2000, 0x8FFE, [0x01, 0x03]) ∧
    stackAfter .call (at_ 0x0101 0x0001 [(0x0102, 0x20)]) [0x0000, 0xFFFF] =
      some (0x2000, 0xFFFF, [0x01, 0x03]) := by decide
/-- L4b: the push overwrites the operand. -/
theorem test_call_overwrites_its_operand :
    stackAfter .call (at_ 0x0101 0x0103 [(0x0100, 0xCD), (0x0102, 0x20)]) [0x0100, 0x0101, 0x0102] =
      some (0x2000, 0x0101, [0xCD, 0x03, 0x01]) := by decide
/-- C31 (taken) and C30 (not taken). -/
theorem test_callCc :
    stackAfter (.callCc ⟨.z, true⟩) (withFlags (at_ 0x0101 0x9000 [(0x0102, 0x20)]) true false false false)
      [0x8FFF, 0x8FFE] = some (0x2000, 0x8FFE, [0x01, 0x03]) ∧
    stackAfter (.callCc ⟨.z, false⟩) (withFlags (at_ 0x0101 0x9000 [(0x0102, 0x20)]) true false false false)
      [0x8FFF, 0x8FFE] = some (0x0103, 0x9000, [0x00, 0x00]) := by decide
/-- L5 and L6c. -/
theorem test_rst :
    stackAfter (.rst 0x38) (at_ 0x1235 0x9000 []) [0x8FFF, 0x8FFE] = some (0x0038, 0x8FFE, [0x12, 0x35]) ∧
    stackAfter (.rst 0xAB) (at_ 0x0200 0x9000 []) [0x8FFF, 0x8FFE] = some (0x00AB, 0x8FFE, [0x02, 0x00]) := by
  decide
/-- L6b: `RST 00h` is no reset. -/
theorem test_rst_zero_is_no_reset :
    (after (exec (.rst 0x00) (((at_ 0x4001 0x9000 []).setInNmi true).setB 7))).map
      (fun t => (t.pc, t.inNmi, t.b, t.byteAt 0x8FFF)) = some (0x0000, true, 7, 0x40) := by decide
/-- L9 and L15. -/
theorem test_ret :
    (after (exec .ret ((at_ 0 0x8FFE [(0x8FFE, 0x03), (0x8FFF, 0x01)]).setInNmi true))).map
      (fun t => (t.pc, t.sp, t.inNmi)) = some (0x0103, 0x9000, true) ∧
    stackAfter .ret (at_ 0 0xFFFF [(0x0000, 0xE9), (0xFFFF, 0x05)]) [] = some (0xE905, 0x0001, []) := by decide
/-- C45 (taken) and C46 (not taken). -/
theorem test_retCc :
    stackAfter (.retCc ⟨.pv, true⟩)
      (withFlags (at_ 0x0501 0x8FFE [(0x8FFE, 0x03), (0x8FFF, 0x01)]) false true true true) [] =
      some (0x0103, 0x9000, []) ∧
    stackAfter (.retCc ⟨.s, false⟩)
      (withFlags (at_ 0x0501 0x8FFE [(0x8FFE, 0x03), (0x8FFF, 0x01)]) false true true true) [] =
      some (0x0501, 0x8FFE, []) := by decide
/-- L11. -/
theorem test_reti :
    (after (exec .reti ((at_ 0 0x8FFE [(0x8FFE, 0x03), (0x8FFF, 0x01)]).setInNmi true))).map
      (fun t => (t.pc, t.sp, t.inNmi)) = some (0x0103, 0x9000, true) := by decide
/-- L13. -/
theorem test_retn :
    (after (exec .retn ((at_ 0 0x8FFE [(0x8FFE, 0x03), (0x8FFF, 0x01)]).setInNmi true))).map
      (fun t => (t.pc, t.sp, t.inNmi)) = some (0x0103, 0x9000, false) := by decide
/-- D1, D2, D3, D10. -/
theorem test_djnz :
    ([(0x05, 0x0100, 0xFD), (0x01, 0x0100, 0xFD), (0x00, 0x0100, 0xFD), (0x02, 0xFFFF, 0xFE)] :
        List (Byte × Word × Byte)).map
      (fun r => (after (exec .djnz ((at_ r.2.1 0 [(r.2.1.toNat, r.2.2)]).setB r.1))).map fun t => (t.b, t.pc)) =
      [some (0x04, 0x00FE), some (0x00, 0x0101), some (0xFF, 0x00FE), some (0x01, 0xFFFE)] := by decide
/-- D7, D8: no flag is read or written. -/
theorem test_djnz_reads_no_flag :
    (after (exec .djnz ((withFlags (at_ 0x0100 0 [(0x0100, 0xFD)]) true false false false).setB 5))).map
      (fun t => (t.pc, t.flags.z)) = some (0x00FE, true) ∧
    (after (exec .djnz ((at_ 0x0100 0 [(0x0100, 0xFD)]).setB 1))).map
      (fun t => (t.pc, t.flags.z)) = some (0x0101, false) := by decide
/-- E1: what a call leaves whose second write fails. -/
theorem test_envFail_call :
    exec .call (failing (.memWrite 0x8FFE) (at_ 0x0101 0x9000 [(0x0102, 0x20)])) =
      .fault (.envFail (.memWrite 0x8FFE)
        (failing (.memWrite 0x8FFE) (at_ 0x0103 0x9000 [(0x0102, 0x20), (0x8FFF, 0x01)]))) := rfl
/-- E2: the flag stays when the pop fails. -/
theorem test_envFail_retn :
    exec .retn (failing (.memRead 0x8FFF) ((at_ 0 0x8FFE []).setInNmi true)) =
      .fault (.envFail (.memRead 0x8FFF) (failing (.memRead 0x8FFF) ((at_ 0 0x8FFE []).setInNmi true))) := rfl
/-- Section 2.8 of 95_test_vectors.md. -/
theorem test_display_names :
    [0x0000, 0x3100, 0x4000, 0x3838, 0x3808, 0x38FF, 0x0B00, 0x1E00, 0x4F00, 0x6000].map
      (fun c => (decodeCmd (BitVec.ofNat 15 c) .hl).map displayName) =
      [some "JR d", some "CALL Z, nn", some "RET", some "RST 38h", some "RST 08h", some "RST ffh",
       some "JR C, d", some "JP P, nn", some "RET M", some "DJNZ d"] := by decide

/-! ## Witnesses: states and operands that meet all the hypotheses of a statement together -/

/-- A state with a word at `PC` that is not zero, a stack away from it, and every register set. -/
def sample : State :=
  { pc := 0x0101, sp := 0x9000, b := 3, flags := ⟨true, false, true, false⟩, hl := 0xBEEF, ix := 0x1234,
    iy := 0xFFFF, inNmi := true, mem := [(0x0101, 0x34), (0x0102, 0x12)], env := Env.default }

/-- Conditions that hold and do not hold in `sample`. -/
def holding : Cond := ⟨.z, true⟩

def failingCond : Cond := ⟨.s, true⟩

theorem sample_plain_inv : sample.Plain ∧ sample.Inv ∧ condHolds holding sample.flags = true ∧
    condHolds failingCond sample.flags = false := by decide

theorem witness_DecodeOfEncodeGivesInstructionBack :
    ((Instr.jrCc ⟨.c, true⟩).wellFormed = true ∧ (Operand.disp 0x80).fits (Instr.jrCc ⟨.c, true⟩).format = true) ∧
    ((Instr.callCc ⟨.s, true⟩).wellFormed = true ∧ (Operand.addr 0xFFFF).fits (Instr.callCc ⟨.s, true⟩).format = true) ∧
    (Instr.rst 0x38).wellFormed = true ∧ Operand.absent.fits (Instr.rst 0x38).format = true := by decide

theorem witness_DecodedOperationsAreWellFormed :
    decode [0xFD, 0xDD, 0xE9, 0x00] = .op .jpIx [0x00] ∧ decode [0xFF] = .op (.rst 0x38) [] := by decide

theorem witness_IndexPrefixesSelectOnlyTheJumpRegister :
    (∀ p ∈ ([0xFD, 0xDD] : List Byte), p = 0xDD ∨ p = 0xFD) ∧ Instr.retn.wellFormed = true ∧
    Instr.retn ≠ .jpHl ∧ Instr.jpIx ≠ .jpHl := by decide

theorem witness_DuplicateReturnBytesAreRetn :
    (0x55 : Byte) ∈ ([0x55, 0x65, 0x75, 0x5D, 0x6D, 0x7D] : List Byte) ∧
    (0x7D : Byte) ∈ ([0x55, 0x65, 0x75, 0x5D, 0x6D, 0x7D] : List Byte) := by decide

/-- Kinds 13 and 15; a kind that reads `CC`, one that reads `VEC`, one that reads neither. -/
theorem witness_ReservedKindsRefusedUnreadFieldsIgnored :
    13 ≤ (cmdKind 0x6800).toNat ∧ 13 ≤ (cmdKind 0x7FFF).toNat ∧
    (((1 : BitVec 4) ∈ ([1, 3, 6, 9] : List (BitVec 4)) → (5 : BitVec 3) = 5) ∧ ((1 : BitVec 4) = 7 → (0x12 : Byte) = 0x34)) ∧
    (((7 : BitVec 4) ∈ ([1, 3, 6, 9] : List (BitVec 4)) → (5 : BitVec 3) = 6) ∧ ((7 : BitVec 4) = 7 → (0x12 : Byte) = 0x12)) ∧
    (((8 : BitVec 4) ∈ ([1, 3, 6, 9] : List (BitVec 4)) → (5 : BitVec 3) = 6) ∧ ((8 : BitVec 4) = 7 → (0x12 : Byte) = 0x34)) := by
  decide

/-- The opcode bytes lie across the top of the address space. -/
theorem witness_StepRunsDecodedOperation :
    (at_ 0xFFFF 0x9000 [(0x0000, 0x45), (0xFFFF, 0xED)]).Plain ∧
    ([0xED, 0x45] : List Byte).length ≤ Config.fetchLimit ∧ decode [0xED, 0x45] = .op .retn [] ∧
    BytesAt (at_ 0xFFFF 0x9000 [(0x0000, 0x45), (0xFFFF, 0xED)]) 0xFFFF [0xED, 0x45] :=
  ⟨rfl, by decide, by decide, by decide, by decide, trivial⟩

theorem witness_CompletedStepIsOneOperation : ∃ t, step (at_ 0x0010 0x9000 [(0x0010, 0xC9)]) = .next t :=
  ⟨_, rfl⟩

/-- A first byte, a byte after index prefixes, a byte after `0xED` and after both, each in memory at `PC`. -/
theorem witness_StepRefusesOtherInstructions :
    (State.reset.Plain ∧ decode [0x00] = .reject (.notControlTransfer 0x00) ∧ BytesAt State.reset 0x0000 [0x00]) ∧
    (decode [0xDD, 0x21] = .reject (.notControlTransfer 0x21) ∧
      BytesAt (at_ 0x0010 0 [(0x0010, 0xDD), (0x0011, 0x21)]) 0x0010 [0xDD, 0x21]) ∧
    (decode [0xED, 0x44] = .reject (.notControlTransferEd 0x44) ∧
      BytesAt (at_ 0x0010 0 [(0x0010, 0xED), (0x0011, 0x44)]) 0x0010 [0xED, 0x44]) ∧
    ((∀ p ∈ ([0xFD, 0xDD] : List Byte), p = 0xDD ∨ p = 0xFD) ∧
      (0x44 : Byte) ∉ ([0x45, 0x4D, 0x55, 0x5D, 0x65, 0x6D, 0x75, 0x7D] : List Byte)) ∧
    ([0xDD, 0x21] : List Byte).length ≤ Config.fetchLimit :=
  ⟨⟨rfl, rfl, rfl, trivial⟩, ⟨by decide, by decide, by decide, trivial⟩,
   ⟨by decide, by decide, by decide, trivial⟩, by decide, by decide⟩

/-- Memory that holds the same byte everywhere. -/
def uniform (v : Byte) : Memory := (List.range' 0 65536).map fun a => (a, v)

theorem uniform_read (v : Byte) (lo n a : Nat) (h : lo ≤ a) (h' : a < lo + n) :
    Memory.read ((List.range' lo n).map fun a => (a, v)) a = v := by
  induction n generalizing lo with
  | zero => omega
  | succ n ih =>
    simp only [List.range'_succ, List.map_cons, Memory.read]
    split
    · rfl
    · exact ih (lo + 1) (by omega) (by omega)

/-- `StepRefusesEndlessPrefixes`: a memory of prefixes only, and one that is not. -/
theorem witness_StepRefusesEndlessPrefixes :
    (State.reset.setMem (uniform 0xDD)).Plain ∧
    (∀ a : Word, (State.reset.setMem (uniform 0xDD)).byteAt a = 0xDD ∨
      (State.reset.setMem (uniform 0xDD)).byteAt a = 0xFD) ∧
    State.reset.Plain ∧ ¬ (State.reset.byteAt 0x0000 = 0xDD ∨ State.reset.byteAt 0x0000 = 0xFD) :=
  ⟨rfl, fun a => .inl (uniform_read 0xDD 0 65536 a.toNat (by omega) (by omega)), rfl, by decide⟩

/-- The boundaries of the two ranges of a displacement: 0x00, 0x7F and 0x80, 0xFF. -/
theorem witness_RelativeJumpAddsSignedDisplacement :
    (0x00 : Byte).toNat < 128 ∧ (0x7F : Byte).toNat < 128 ∧
    128 ≤ (0x80 : Byte).toNat ∧ 128 ≤ (0xFF : Byte).toNat := by decide

theorem witness_RelativeTransferReach :
    (∃ t, exec .jr sample = .next t) ∧ (∃ t, exec .djnz sample = .next t) ∧
    (∃ t, exec (.jrCc holding) sample = .next t) ∧ (∃ t, exec (.jrCc failingCond) sample = .next t) ∧
    sample.Plain ∧ sample.Inv ∧ 0 < 256 ∧ 255 < 256 :=
  ⟨⟨_, rfl⟩, ⟨_, rfl⟩, ⟨_, rfl⟩, ⟨_, rfl⟩, by decide, by decide, by decide, by decide⟩

theorem witness_CondTrueTruthTable :
    sample.Plain ∧ (⟨true, false, true, false⟩ : Flags).get .z = (⟨true, true, false, true⟩ : Flags).get .z := by
  decide

/-- The hypotheses of every `StopsAt` clause, and those of `FailureKeepsCompletedSubsteps`: each environment
operation fails alone, in a state with the same registers, in which the condition holds. -/
theorem witness_single_failures :
    ∀ c ∈ ([.memRead sample.pc, .memRead (sample.pc + 1#16), .getFlag .z, .getFlag .c, .getFlag .pv, .getFlag .s,
        .memWrite (sample.sp - 1#16), .memWrite (sample.sp - 2#16), .memRead sample.sp,
        .memRead (sample.sp + 1#16), .endNmi, .get8, .set8, .indexValue] : List EnvCall),
      (failing c sample).FailsOnly c ∧ (failing c sample).pc = sample.pc ∧ (failing c sample).sp = sample.sp ∧
      condHolds holding (failing c sample).flags = true := by decide

/-- A byte whose decoding is a `JR cc`. -/
theorem witness_JrCcJumpsWhenConditionHolds : decode [0x38] = .op (.jrCc ⟨.c, true⟩) [] := by decide

theorem witness_IndexJumpLoadsRegisterValue :
    .indexValue ∉ sample.env.failing ∧ .indexValue ∈ (failing .indexValue sample).env.failing := by decide

/-- `JumpsDoNotLink`, each jump, in an environment where all writes to the stack would fail. -/
theorem witness_JumpsDoNotLink :
    (∃ t, exec .jp (failing (.memWrite 0x8FFF) sample) = .next t) ∧
    (∃ t, exec .jpHl (failing (.memWrite 0x8FFF) sample) = .next t) ∧
    (∃ t, exec .jpIx (failing (.memWrite 0x8FFF) sample) = .next t) ∧
    ∃ t, exec .jpIy (failing (.memWrite 0x8FFF) sample) = .next t :=
  ⟨⟨_, rfl⟩, ⟨_, rfl⟩, ⟨_, rfl⟩, ⟨_, rfl⟩⟩

/-- `JrJumpsRelativeToNextInstruction`, `JpLoadsLittleEndianOperand`, `JrCcJumpsWhenConditionHolds`,
`JpCcJumpsWhenConditionHolds`, `CallPushesAddressAfterOperand`, `CallCcPushesOnlyWhenTaken`,
`RetPopsProgramCounter`, `RetiIsRetInState`, `RetnPopsThenClearsInNmi`, `DjnzDecrementsThenTests`: the default
environment, a taken and a not-taken condition. -/
theorem witness_plain_operations :
    sample.Plain ∧ sample.Inv ∧ condHolds holding sample.flags = true ∧
    condHolds failingCond sample.flags = false := sample_plain_inv

/-- The eight restart bytes are those with `k < 8`. -/
theorem witness_RstCallsItsVector : 0 < 8 ∧ 7 < 8 := by decide

theorem witness_RetCcReturnsOnlyWhenTaken :
    sample.Plain ∧ condHolds holding sample.flags = true ∧ .getFlag failingCond.flag ∉ sample.env.failing ∧
    condHolds failingCond sample.flags = false := by decide

/-- Every operation completes in `sample`, so that the frames and the rules about every operation
(`JumpFrame`, `DjnzFrame`, `CallFrame`, `ReturnFrame`, `NoOperationWritesFlags`,
`InNmiClearedByRetnAloneReadByNone`, `OperationsWriteOnlyListedState`, `EveryOperationIsTotal`) have cases. -/
theorem witness_every_operation_completes :
    sample.Plain ∧
    (∃ t, exec .djnz sample = .next t) ∧ (∃ t, exec .jr sample = .next t) ∧
    (∃ t, exec (.jrCc holding) sample = .next t) ∧ (∃ t, exec (.retCc holding) sample = .next t) ∧
    (∃ t, exec (.retCc failingCond) sample = .next t) ∧ (∃ t, exec (.jpCc holding) sample = .next t) ∧
    (∃ t, exec .jp sample = .next t) ∧ (∃ t, exec (.callCc holding) sample = .next t) ∧
    (∃ t, exec (.callCc failingCond) sample = .next t) ∧ (∃ t, exec (.rst 0xFF) sample = .next t) ∧
    (∃ t, exec .ret sample = .next t) ∧ (∃ t, exec .call sample = .next t) ∧
    (∃ t, exec .jpHl sample = .next t) ∧ (∃ t, exec .jpIx sample = .next t) ∧
    (∃ t, exec .jpIy sample = .next t) ∧ (∃ t, exec .retn sample = .next t) ∧
    ∃ t, exec .reti sample = .next t :=
  ⟨rfl, ⟨_, rfl⟩, ⟨_, rfl⟩, ⟨_, rfl⟩, ⟨_, rfl⟩, ⟨_, rfl⟩, ⟨_, rfl⟩, ⟨_, rfl⟩, ⟨_, rfl⟩, ⟨_, rfl⟩, ⟨_, rfl⟩,
   ⟨_, rfl⟩, ⟨_, rfl⟩, ⟨_, rfl⟩, ⟨_, rfl⟩, ⟨_, rfl⟩, ⟨_, rfl⟩, ⟨_, rfl⟩⟩

/-- A failing environment operation, and an access to a hole. -/
theorem witness_FaultsArePropagatedFailures :
    (∃ r, exec .djnz (failing .get8 sample) = .fault r) ∧
    ∃ r, exec .ret (withRegion ⟨0x8000, 0xFFFF, .hole⟩ sample) = .fault r :=
  ⟨⟨_, rfl⟩, ⟨_, rfl⟩⟩

/-- `FailureKeepsCompletedSubsteps`: the formats (the environments are those of `witness_single_failures`). -/
theorem witness_FailureKeepsCompletedSubsteps :
    Instr.djnz.format ≠ .n ∧ (Instr.jrCc holding).format ≠ .n ∧ Instr.jp.format = .nn ∧
    (Instr.callCc holding).format = .nn := by decide

theorem witness_StepKeepsMemoryCanonical :
    (at_ 0x0010 0x9000 [(0x0010, 0xFF)]).Inv ∧ ∃ t, step (at_ 0x0010 0x9000 [(0x0010, 0xFF)]) = .next t :=
  ⟨by decide, _, rfl⟩

theorem witness_ResetMemoryIsCanonical : sample.Inv := by decide

theorem witness_SystemRunKeepsMemoryCanonical :
    State.reset.Inv ∧ sample.Inv ∧
    ∃ t, systemRun [some (.otherInstruction sample), some (.nmi 0x0101), some (.reset ResetParams.named)]
      State.reset = .next t :=
  ⟨by decide, by decide, _, rfl⟩

/-- `ConditionalIsNothingOrUnconditional`: both cases. -/
theorem witness_ConditionalIsNothingOrUnconditional :
    sample.Plain ∧ condHolds holding sample.flags = true ∧ condHolds failingCond sample.flags = false := by decide

/-- A call, then a state in which other registers have changed, for each kind of return. -/
theorem witness_CallReturnRoundTrip :
    ∃ t, exec .call sample = .next t ∧ sample.Plain ∧ sample.Inv ∧ (t.setB 9).Plain ∧
      (t.setB 9).sp = sample.sp - 2#16 ∧ (t.setB 9).byteAt (sample.sp - 2#16) = t.byteAt (sample.sp - 2#16) ∧
      (t.setB 9).byteAt (sample.sp - 1#16) = t.byteAt (sample.sp - 1#16) ∧
      condHolds holding (t.setB 9).flags = true :=
  ⟨_, rfl, by decide, by decide, rfl, rfl, rfl, rfl, rfl⟩

/-- The same for the restart and the conditional call. -/
theorem witness_CallReturnRoundTrip_others :
    (∃ t, exec (.rst 0x38) sample = .next t ∧ t.Plain ∧ t.sp = sample.sp - 2#16) ∧
    ∃ t, exec (.callCc holding) sample = .next t ∧ t.Plain ∧ t.sp = sample.sp - 2#16 :=
  ⟨⟨_, rfl, rfl, rfl⟩, ⟨_, rfl, rfl, rfl⟩⟩

theorem witness_PushesAndPopsAreLifo :
    ∃ s1 s2, push16 0x1234 sample = .ok () s1 ∧ push16 0x5678 s1 = .ok () s2 ∧ s2.Plain ∧ sample.Plain ∧ sample.Inv :=
  ⟨_, _, rfl, rfl, rfl, rfl, by decide⟩

/-- A loop of `DJNZ` at one place: the register counts down from `start`. -/
def loopBefore (start : Byte) (k : Nat) : State :=
  (at_ 0x0100 0 [(0x0100, 0xFD)]).setB (start - BitVec.ofNat 8 k)

def loopAfter (start : Byte) (k : Nat) : State := (after (exec .djnz (loopBefore start k))).getD State.reset

theorem loop_step (start : Byte) (k : Nat) : ∃ t, exec .djnz (loopBefore start k) = .next t ∧
    t.b = (loopBefore start k).b - 1#8 := by
  have hp : (loopBefore start k).Plain := rfl
  have hp' : ((loopBefore start k).setPc ((loopBefore start k).pc + 1#16)).Plain := rfl
  simp only [exec, execDjnz, fetchByte_plain hp, Micro.bind_ok, countAndJump_plain hp']
  exact ⟨_, rfl, rfl⟩

theorem loop_runs (start : Byte) (k : Nat) : exec .djnz (loopBefore start k) = .next (loopAfter start k) := by
  obtain ⟨t, ht, -⟩ := loop_step start k
  simp only [loopAfter, ht, after, Option.getD_some]

theorem loop_counts (start : Byte) (k : Nat) : (loopBefore start (k + 1)).b = (loopAfter start k).b := by
  obtain ⟨t, ht, hb⟩ := loop_step start k
  simp only [loopAfter, ht, after, Option.getD_some, hb]
  show start - BitVec.ofNat 8 (k + 1) = start - BitVec.ofNat 8 k - 1#8
  rw [BitVec.ofNat_add]
  bv_omega

/-- The boundary values of the register at entry: 1, 0 (256 passes), and 255. -/
theorem witness_DjnzLoopCount :
    ∀ start ∈ ([1, 0, 255] : List Byte),
      (∀ k, (loopBefore start k).Plain) ∧ (∀ k, exec .djnz (loopBefore start k) = .next (loopAfter start k)) ∧
      (∀ k, (loopBefore start (k + 1)).b = (loopAfter start k).b) ∧ (loopBefore start 0).b = start :=
  fun start _ => ⟨fun _ => rfl, loop_runs start, loop_counts start, by simp [loopBefore]⟩

/-- `DjnzToItselfRunsCountSteps`, the register 0 and 3. -/
theorem witness_DjnzToItselfRunsCountSteps :
    (at_ 0x0100 0 [(0x0100, 0x10), (0x0101, 0xFE)]).Plain ∧
    BytesAt (at_ 0x0100 0 [(0x0100, 0x10), (0x0101, 0xFE)]) 0x0100 [0x10, 0xFE] ∧
    BytesAt ((at_ 0x0100 0 [(0x0100, 0x10), (0x0101, 0xFE)]).setB 3) 0x0100 [0x10, 0xFE] :=
  ⟨rfl, ⟨by decide, by decide, trivial⟩, ⟨by decide, by decide, trivial⟩⟩

/-- `FetchSeesPushedBytes`, with the stack over the operand (L4b). -/
theorem witness_FetchSeesPushedBytes :
    (at_ 0x0101 0x0103 [(0x0100, 0xCD), (0x0102, 0x20)]).Plain ∧
    (at_ 0x0101 0x0103 [(0x0100, 0xCD), (0x0102, 0x20)]).Inv ∧
    (at_ 0x0101 0x0103 [(0x0100, 0xCD), (0x0102, 0x20)]).sp =
      (at_ 0x0101 0x0103 [(0x0100, 0xCD), (0x0102, 0x20)]).pc + 2#16 ∧
    ∃ t, exec .call (at_ 0x0101 0x0103 [(0x0100, 0xCD), (0x0102, 0x20)]) = .next t :=
  ⟨rfl, by decide, by decide, _, rfl⟩

/-- An accepted non-maskable interrupt sets the flag; a step leaves a set flag set. -/
theorem witness_OnlyNmiEntrySetsInNmi :
    (∃ t, systemStep (some (.nmi 0x0101)) State.reset = .next t ∧ t.inNmi = true) ∧
    ∃ t, systemStep none ((at_ 0x0010 0x9000 [(0x0010, 0xC9)]).setInNmi true) = .next t ∧ t.inNmi = true :=
  ⟨⟨_, rfl, rfl⟩, ⟨_, rfl, rfl⟩⟩

theorem witness_InterruptEntryAndReturn : sample.Plain ∧ sample.Inv := by decide

/-- `ResetWritesPcAndInNmi`: a one-byte and a two-byte opcode at 0x0000. -/
theorem witness_ResetWritesPcAndInNmi :
    ((at_ 7 0 [(0x0000, 0xC3)]).Plain ∧ (at_ 7 0 [(0x0000, 0xC3)]).byteAt 0x0000 = 0xC3 ∧ decode [0xC3] = .op .jp []) ∧
    (at_ 7 0 [(0x0000, 0xED), (0x0001, 0x45)]).Plain ∧ (at_ 7 0 [(0x0000, 0xED), (0x0001, 0x45)]).byteAt 0x0000 = 0xED ∧
    (at_ 7 0 [(0x0000, 0xED), (0x0001, 0x45)]).byteAt 0x0001 = 0x45 ∧ decode [0xED] = .needMore ∧
    decode [0xED, 0x45] = .op .retn [] := by decide

theorem witness_PushToRomKeepsBytes :
    (withRegion ⟨0x8000, 0x8FFF, .rom⟩ sample).env.failing = [] ∧
    regionKind (withRegion ⟨0x8000, 0x8FFF, .rom⟩ sample).env.memMap (sample.sp - 1#16) = .rom ∧
    regionKind (withRegion ⟨0x8000, 0x8FFF, .rom⟩ sample).env.memMap (sample.sp - 2#16) = .rom := by decide

/-- Holes and devices at the top of the stack, below it, and at `PC`, each the only region. -/
theorem witness_HolesFailDevicesAreRefused :
    (∀ k ∈ [RegionKind.hole, .device],
      (withRegion ⟨0x9000, 0x9000, k⟩ sample).env.failing = [] ∧
      regionKind (withRegion ⟨0x9000, 0x9000, k⟩ sample).env.memMap sample.sp = k ∧
      regionKind (withRegion ⟨0x8FFF, 0x8FFF, k⟩ sample).env.memMap (sample.sp - 1#16) = k ∧
      regionKind (withRegion ⟨0x0000, 0x0101, k⟩ sample).env.memMap sample.pc = k) := by decide

theorem witness_DisplayNamesFollowThePattern : 0 < 16 ∧ 15 < 16 := by decide

end Sys2Proof.Tests
end

/-!
The step of 00_scope.md R1 and R6: the opcode fetch and the bytes that the decoder takes for one operation, in
both directions.
-/

namespace Sys2Proof

/-- Bytes that are exactly one operation ask for more until the last of them. -/
theorem decode_op_nil_snoc {bytes : List Byte} {i : Instr} (h : decode bytes = .op i []) :
    ∃ pre b, bytes = pre ++ [b] ∧ decode pre = .needMore := by
  rcases decodeWith_needMore_or (bytes := bytes) .hl with hmore | ⟨pre, b, post, rfl, hpre, hanswer⟩
  · exact absurd (h.symm.trans hmore) (by simp)
  rw [← List.singleton_append, ← List.append_assoc] at h
  cases hd : decodeWith .hl (pre ++ [b]) with
  | needMore => exact absurd hd hanswer
  | reject r => exact absurd (h.symm.trans (decodeWith_reject_append hd)) (by simp)
  | op j rest =>
    have hpost := h.symm.trans (decodeWith_op_append hd)
    rw [Decoded.op.injEq, eq_comm (a := []), List.append_eq_nil_iff] at hpost
    exact ⟨pre, b, by simp [hpost.2.2], hpre⟩

namespace Machine

theorem bytesAt_append (s : State) (a : Word) (front back : List Byte) :
    BytesAt s a (front ++ back) ↔
      BytesAt s a front ∧ BytesAt s (a + BitVec.ofNat 16 front.length) back := by
  induction front generalizing a with
  | nil => simp [BytesAt]
  | cons b front ih => simp only [List.cons_append, BytesAt, ih, pc_after_cons a b, and_assoc]

theorem pc_after_snoc (a : Word) (bytes : List Byte) (b : Byte) :
    a + BitVec.ofNat 16 bytes.length + 1#16 = a + BitVec.ofNat 16 (bytes ++ [b]).length := by
  rw [List.length_append, BitVec.ofNat_add, BitVec.add_assoc, List.length_singleton]

/-- In the default environment the fetch finds the operation that the bytes at `PC` are, and leaves `PC` past
them. -/
theorem fetchOpcode_plain {s : State} {bytes : List Byte} {i : Instr} (hp : s.Plain)
    (hlen : bytes.length ≤ Config.fetchLimit) (hd : decode bytes = .op i []) (hb : BytesAt s s.pc bytes) :
    fetchOpcode s = .ok i (s.setPc (s.pc + BitVec.ofNat 16 bytes.length)) := by
  obtain ⟨pre, b, rfl, hpre⟩ := decode_op_nil_snoc hd
  obtain ⟨hbpre, hlast, -⟩ := (bytesAt_append ..).1 hb
  obtain ⟨fuel, hfuel⟩ : ∃ fuel, Config.fetchLimit = fuel + 1 + pre.length := by
    obtain ⟨fuel, hfuel⟩ := Nat.exists_eq_add_of_le' hlen
    exact ⟨fuel, by rw [hfuel, List.length_append, List.length_singleton]; omega⟩
  have hp' : (s.setPc (s.pc + BitVec.ofNat 16 pre.length)).Plain := hp
  rw [fetchOpcode, hfuel, fetchOpcodeAfter_skip (seen := []) (fuel + 1) hp hpre hbpre, fetchOpcodeAfter_succ_plain fuel hp',
    List.nil_append, State.setPc_byteAt, State.setPc_pc, hlast, hd, State.setPc_setPc, pc_after_snoc]

/-- A fetch that completes, in any environment, has read bytes at `PC` that are exactly the operation. -/
theorem fetchOpcode_eq_ok {s t : State} {i : Instr} (h : fetchOpcode s = .ok i t) :
    ∃ bytes, decode bytes = .op i [] ∧ BytesAt s s.pc bytes ∧
      t = s.setPc (s.pc + BitVec.ofNat 16 bytes.length) := by
  obtain ⟨pre, b, rest, hd, hmore, hb, ht⟩ := fetchOpcodeAfter_eq_ok h
  rw [List.nil_append] at hd hmore
  have hpre : decode pre = .needMore := by
    rcases hmore with rfl | hmore
    · rfl
    · exact hmore
  obtain rfl := decodeWith_snoc_op hpre hd
  exact ⟨pre ++ [b], hd, hb, ht⟩

theorem step_of_fetchOpcode {s u : State} {i : Instr} (h : fetchOpcode s = .ok i u) : step s = exec i u := by
  rw [step, h]

/-- A step that answers has completed its fetch and its operation. -/
theorem step_eq_next {s t : State} (h : step s = .next t) :
    ∃ i u, fetchOpcode s = .ok i u ∧ exec i u = .next t := by
  unfold step at h
  split at h
  · next i u hfetch => exact ⟨i, u, hfetch, h⟩
  · cases h
  · cases h

/-- Settles O10: the fetch of a completed step has completed, so it has read one operation (R1). -/
theorem completedStepIsOneOperation : Obligations.CompletedStepIsOneOperation := by
  intro s t h
  obtain ⟨i, u, hfetch, hexec⟩ := step_eq_next h
  obtain ⟨bytes, hd, hb, rfl⟩ := fetchOpcode_eq_ok hfetch
  exact ⟨bytes, i, hd, hb, hexec⟩

/-- Settles O9: the fetch stops at the last of the bytes, with `PC` at `PC_in` (R1, R6). -/
theorem stepRunsDecodedOperation : Obligations.StepRunsDecodedOperation :=
  fun _ _ _ hp hlen hd hb => step_of_fetchOpcode (fetchOpcode_plain hp hlen hd hb)

end Machine

end Sys2Proof

/-!
The flags of 10_state.md R19: whatever an operation runs keeps the registers that only instructions outside the
CTD write, said once per micro-operation and handed on along `bind`.
-/

namespace Sys2Proof.Machine

theorem SameOutsideCtd.trans {s u t : State} (h₁ : SameOutsideCtd s u) (h₂ : SameOutsideCtd u t) :
    SameOutsideCtd s t := by
  obtain ⟨hflags, hhl, hix, hiy, henv⟩ := h₁
  obtain ⟨hflags', hhl', hix', hiy', henv'⟩ := h₂
  exact ⟨hflags'.trans hflags, hhl'.trans hhl, hix'.trans hix, hiy'.trans hiy, henv'.trans henv⟩

/-- A completed sequence keeps them when each of its two parts does. -/
theorem SameOutsideCtd.of_bind {α β : Type} {m : Micro α} {f : α → State → Micro β} {b : β} {s t : State}
    (h : m.bind f = .ok b t) (hm : ∀ {a u}, m = .ok a u → SameOutsideCtd s u)
    (hf : ∀ {a u}, f a u = .ok b t → SameOutsideCtd u t) : SameOutsideCtd s t := by
  obtain ⟨a, u, hfirst, hrest⟩ := Micro.bind_eq_ok h
  exact (hm hfirst).trans (hf hrest)

theorem fetchByte_sameOutsideCtd {s t : State} {v : Byte} (h : fetchByte s = .ok v t) : SameOutsideCtd s t := by
  obtain ⟨-, rfl⟩ := fetchByte_eq_ok h
  exact ⟨rfl, rfl, rfl, rfl, rfl⟩

theorem fetchWord_sameOutsideCtd {s t : State} {v : Word} (h : fetchWord s = .ok v t) : SameOutsideCtd s t := by
  obtain ⟨-, rfl⟩ := fetchWord_eq_ok h
  exact ⟨rfl, rfl, rfl, rfl, rfl⟩

theorem loadPc_sameOutsideCtd {v : Word} {s t : State} (h : loadPc v s = .ok () t) : SameOutsideCtd s t := by
  cases h
  exact ⟨rfl, rfl, rfl, rfl, rfl⟩

theorem relJump_sameOutsideCtd {ofs : Byte} {s t : State} (h : relJump ofs s = .ok () t) : SameOutsideCtd s t :=
  loadPc_sameOutsideCtd h

theorem indexedJump_sameOutsideCtd {x : IndexReg} {s t : State} (h : indexedJump x s = .ok () t) :
    SameOutsideCtd s t := by
  cases indexedJump_eq_ok h
  exact ⟨rfl, rfl, rfl, rfl, rfl⟩

theorem subCall_sameOutsideCtd {addr : Word} {s t : State} (h : subCall addr s = .ok () t) :
    SameOutsideCtd s t := by
  rw [(subCall_frame h).1]
  exact ⟨rfl, rfl, rfl, rfl, rfl⟩

theorem subReturn_sameOutsideCtd {s t : State} (h : subReturn s = .ok () t) : SameOutsideCtd s t := by
  cases subReturn_eq_ok h
  exact ⟨rfl, rfl, rfl, rfl, rfl⟩

theorem nmiReturn_sameOutsideCtd {s t : State} (h : nmiReturn s = .ok () t) : SameOutsideCtd s t := by
  cases nmiReturn_eq_ok h
  exact ⟨rfl, rfl, rfl, rfl, rfl⟩

theorem readCount_sameOutsideCtd {s t : State} {c : Byte} (h : readCount s = .ok c t) : SameOutsideCtd s t := by
  cases (askEnv_eq_ok h).1
  exact ⟨rfl, rfl, rfl, rfl, rfl⟩

theorem writeCount_sameOutsideCtd {n : Byte} {s t : State} (h : writeCount n s = .ok () t) :
    SameOutsideCtd s t := by
  cases (askEnv_eq_ok h).1
  exact ⟨rfl, rfl, rfl, rfl, rfl⟩

theorem whenCond_sameOutsideCtd {cc : Cond} {effect : State → Micro Unit} {s t : State}
    (heffect : effect s = .ok () t → SameOutsideCtd s t) (h : whenCond cc effect s = .ok () t) :
    SameOutsideCtd s t := by
  rcases whenCond_eq_ok h with ⟨-, htaken⟩ | ⟨-, rfl⟩
  · exact heffect htaken
  · exact ⟨rfl, rfl, rfl, rfl, rfl⟩

/-- The last sub-step of `DJNZ`: fall through or jump (44_djnz.md R110). -/
theorem fallOrJump_sameOutsideCtd {p : Prop} [Decidable p] {ofs : Byte} {s t : State}
    (h : (if p then .ok () s else relJump ofs s) = .ok () t) : SameOutsideCtd s t := by
  split at h
  · cases h
    exact ⟨rfl, rfl, rfl, rfl, rfl⟩
  · exact relJump_sameOutsideCtd h

/-- No operation writes a register that belongs to the instructions outside the CTD (10_state.md R10). -/
theorem exec_sameOutsideCtd {i : Instr} {s t : State} (h : exec i s = .next t) : SameOutsideCtd s t := by
  cases i with
  | djnz =>
    exact .of_bind (Micro.outcome_eq_next h) fetchByte_sameOutsideCtd fun h =>
      .of_bind h readCount_sameOutsideCtd fun h =>
      .of_bind h writeCount_sameOutsideCtd fallOrJump_sameOutsideCtd
  | jr => exact .of_bind (Micro.outcome_eq_next h) fetchByte_sameOutsideCtd relJump_sameOutsideCtd
  | jrCc cc =>
    exact .of_bind (Micro.outcome_eq_next h) fetchByte_sameOutsideCtd
      (whenCond_sameOutsideCtd relJump_sameOutsideCtd)
  | retCc cc => exact whenCond_sameOutsideCtd subReturn_sameOutsideCtd (Micro.outcome_eq_next h)
  | jpCc cc =>
    exact .of_bind (Micro.outcome_eq_next h) fetchWord_sameOutsideCtd
      (whenCond_sameOutsideCtd loadPc_sameOutsideCtd)
  | jp => exact .of_bind (Micro.outcome_eq_next h) fetchWord_sameOutsideCtd loadPc_sameOutsideCtd
  | callCc cc =>
    exact .of_bind (Micro.outcome_eq_next h) fetchWord_sameOutsideCtd
      (whenCond_sameOutsideCtd subCall_sameOutsideCtd)
  | rst v => exact subCall_sameOutsideCtd (Micro.outcome_eq_next h)
  | ret => exact subReturn_sameOutsideCtd (Micro.outcome_eq_next h)
  | call => exact .of_bind (Micro.outcome_eq_next h) fetchWord_sameOutsideCtd subCall_sameOutsideCtd
  | jpHl => exact indexedJump_sameOutsideCtd (Micro.outcome_eq_next h)
  | jpIx => exact indexedJump_sameOutsideCtd (Micro.outcome_eq_next h)
  | jpIy => exact indexedJump_sameOutsideCtd (Micro.outcome_eq_next h)
  | retn => exact nmiReturn_sameOutsideCtd (Micro.outcome_eq_next h)
  | reti => exact subReturn_sameOutsideCtd (Micro.outcome_eq_next h)

/-- Settles O33: the flags are among the registers that no operation writes (R19). -/
theorem noOperationWritesFlags : Obligations.NoOperationWritesFlags := by
  intro i s t h
  obtain ⟨hflags, -⟩ := exec_sameOutsideCtd h
  exact hflags

end Sys2Proof.Machine

/-!
The flag `IN_NMI` of 10_state.md R22. Every micro-operation but `endNmi` does the same whatever `IN_NMI` holds:
run from a state with another `IN_NMI`, it gives the same value or the same stop, and the same state but for
`IN_NMI`. That it leaves `IN_NMI` unchanged is the case in which the other value is the state's own.
-/

namespace Sys2Proof.Machine

@[simp] theorem State.setInNmi_self (s : State) : s.setInNmi s.inNmi = s := rfl

/-- The outcome with another `IN_NMI` in its state, a fault's state included. -/
def Micro.setInNmi {α : Type} (m : Micro α) (v : Bool) : Micro α :=
  match m with
  | .ok a s => .ok a (s.setInNmi v)
  | .fault (.envFail call left) => .fault (.envFail call (left.setInNmi v))
  | .refuse r => .refuse r

@[simp] theorem Micro.setInNmi_ok {α : Type} (a : α) (s : State) (v : Bool) :
    (Micro.ok a s).setInNmi v = .ok a (s.setInNmi v) := rfl

/-- A sequence does not read `IN_NMI` when neither of its parts does. -/
theorem Micro.bind_setInNmi {α β : Type} {m m' : Micro α} {f : α → State → Micro β} {v : Bool}
    (hm : m' = m.setInNmi v) (hf : ∀ a s, f a (s.setInNmi v) = (f a s).setInNmi v) :
    m'.bind f = (m.bind f).setInNmi v := by
  subst hm
  cases m with
  | ok a s => exact hf a s
  | fault r => rfl
  | refuse r => rfl

theorem Micro.outcome_setInNmi {m m' : Micro Unit} {t : State} {v : Bool} (hm : m' = m.setInNmi v)
    (h : m.outcome = .next t) : m'.outcome = .next (t.setInNmi v) := by
  rw [hm, Micro.outcome_eq_next h, Micro.setInNmi_ok, Micro.outcome_ok]

theorem askEnv_setInNmi {α : Type} {call : EnvCall} {s : State} {k k' : Micro α} {v : Bool}
    (hk : k' = k.setInNmi v) : askEnv call (s.setInNmi v) k' = (askEnv call s k).setInNmi v := by
  subst hk
  by_cases hfail : call ∈ s.env.failing
  · simp [askEnv, hfail, Micro.setInNmi]
  · simp [askEnv, hfail]

theorem readMem_setInNmi (a : Word) (s : State) (v : Bool) :
    readMem a (s.setInNmi v) = (readMem a s).setInNmi v := by
  refine askEnv_setInNmi ?_
  rw [State.setInNmi_env]
  cases regionKind s.env.memMap a <;> rfl

theorem writeMem_setInNmi (a : Word) (b : Byte) (s : State) (v : Bool) :
    writeMem a b (s.setInNmi v) = (writeMem a b s).setInNmi v := by
  refine askEnv_setInNmi ?_
  rw [State.setInNmi_env]
  cases regionKind s.env.memMap a <;> rfl

theorem readMem16_setInNmi (a : Word) (s : State) (v : Bool) :
    readMem16 a (s.setInNmi v) = (readMem16 a s).setInNmi v :=
  Micro.bind_setInNmi (readMem_setInNmi ..) fun _ _ => Micro.bind_setInNmi (readMem_setInNmi ..) fun _ _ => rfl

theorem writeMem16_setInNmi (a w : Word) (s : State) (v : Bool) :
    writeMem16 a w (s.setInNmi v) = (writeMem16 a w s).setInNmi v :=
  Micro.bind_setInNmi (writeMem_setInNmi ..) fun _ _ => writeMem_setInNmi ..

theorem fetchByte_setInNmi (s : State) (v : Bool) : fetchByte (s.setInNmi v) = (fetchByte s).setInNmi v :=
  Micro.bind_setInNmi (readMem_setInNmi ..) fun _ _ => rfl

theorem fetchWord_setInNmi (s : State) (v : Bool) : fetchWord (s.setInNmi v) = (fetchWord s).setInNmi v :=
  Micro.bind_setInNmi (readMem16_setInNmi ..) fun _ _ => rfl

theorem readCount_setInNmi (s : State) (v : Bool) : readCount (s.setInNmi v) = (readCount s).setInNmi v :=
  askEnv_setInNmi rfl

theorem writeCount_setInNmi (n : Byte) (s : State) (v : Bool) :
    writeCount n (s.setInNmi v) = (writeCount n s).setInNmi v :=
  askEnv_setInNmi rfl

theorem condTrue_setInNmi (cc : Cond) (s : State) (v : Bool) :
    condTrue cc (s.setInNmi v) = (condTrue cc s).setInNmi v :=
  Micro.bind_setInNmi (askEnv_setInNmi rfl) fun _ _ => rfl

theorem whenCond_setInNmi {cc : Cond} {effect : State → Micro Unit} {v : Bool}
    (heffect : ∀ s, effect (s.setInNmi v) = (effect s).setInNmi v) (s : State) :
    whenCond cc effect (s.setInNmi v) = (whenCond cc effect s).setInNmi v :=
  Micro.bind_setInNmi (condTrue_setInNmi ..) fun holds s => by
    cases holds with
    | true => exact heffect s
    | false => rfl

theorem loadPc_setInNmi (w : Word) (s : State) (v : Bool) : loadPc w (s.setInNmi v) = (loadPc w s).setInNmi v :=
  rfl

theorem relJump_setInNmi (ofs : Byte) (s : State) (v : Bool) :
    relJump ofs (s.setInNmi v) = (relJump ofs s).setInNmi v := rfl

theorem indexedJump_setInNmi (x : IndexReg) (s : State) (v : Bool) :
    indexedJump x (s.setInNmi v) = (indexedJump x s).setInNmi v :=
  Micro.bind_setInNmi (askEnv_setInNmi (by rw [State.setInNmi_index, Micro.setInNmi_ok])) fun _ _ => rfl

theorem push16_setInNmi (w : Word) (s : State) (v : Bool) :
    push16 w (s.setInNmi v) = (push16 w s).setInNmi v :=
  Micro.bind_setInNmi (writeMem16_setInNmi ..) fun _ _ => rfl

theorem pop16_setInNmi (s : State) (v : Bool) : pop16 (s.setInNmi v) = (pop16 s).setInNmi v :=
  Micro.bind_setInNmi (readMem16_setInNmi ..) fun _ _ => rfl

theorem subCall_setInNmi (addr : Word) (s : State) (v : Bool) :
    subCall addr (s.setInNmi v) = (subCall addr s).setInNmi v :=
  Micro.bind_setInNmi (push16_setInNmi ..) fun _ _ => loadPc_setInNmi ..

theorem subReturn_setInNmi (s : State) (v : Bool) : subReturn (s.setInNmi v) = (subReturn s).setInNmi v :=
  Micro.bind_setInNmi (pop16_setInNmi ..) fun _ _ => loadPc_setInNmi ..

theorem fallOrJump_setInNmi {p : Prop} [Decidable p] (ofs : Byte) (s : State) (v : Bool) :
    (if p then .ok () (s.setInNmi v) else relJump ofs (s.setInNmi v)) =
      (if p then .ok () s else relJump ofs s : Micro Unit).setInNmi v := by
  split <;> rfl

/-- An operation other than `RETN` neither reads `IN_NMI` nor writes it (R22). -/
theorem exec_setInNmi {i : Instr} (hi : i ≠ .retn) {s t : State} (h : exec i s = .next t) (v : Bool) :
    exec i (s.setInNmi v) = .next (t.setInNmi v) := by
  cases i with
  | djnz =>
    exact Micro.outcome_setInNmi (Micro.bind_setInNmi (fetchByte_setInNmi ..) fun _ _ =>
      Micro.bind_setInNmi (readCount_setInNmi ..) fun _ _ =>
      Micro.bind_setInNmi (writeCount_setInNmi ..) fun _ _ => fallOrJump_setInNmi ..) h
  | jr =>
    exact Micro.outcome_setInNmi
      (Micro.bind_setInNmi (fetchByte_setInNmi ..) fun _ _ => relJump_setInNmi ..) h
  | jrCc cc =>
    exact Micro.outcome_setInNmi (Micro.bind_setInNmi (fetchByte_setInNmi ..) fun _ =>
      whenCond_setInNmi fun _ => relJump_setInNmi ..) h
  | retCc cc => exact Micro.outcome_setInNmi (whenCond_setInNmi (fun _ => subReturn_setInNmi ..) _) h
  | jpCc cc =>
    exact Micro.outcome_setInNmi (Micro.bind_setInNmi (fetchWord_setInNmi ..) fun _ =>
      whenCond_setInNmi fun _ => loadPc_setInNmi ..) h
  | jp =>
    exact Micro.outcome_setInNmi (Micro.bind_setInNmi (fetchWord_setInNmi ..) fun _ _ => loadPc_setInNmi ..) h
  | callCc cc =>
    exact Micro.outcome_setInNmi (Micro.bind_setInNmi (fetchWord_setInNmi ..) fun _ =>
      whenCond_setInNmi fun _ => subCall_setInNmi ..) h
  | rst _ => exact Micro.outcome_setInNmi (subCall_setInNmi ..) h
  | ret => exact Micro.outcome_setInNmi (subReturn_setInNmi ..) h
  | call =>
    exact Micro.outcome_setInNmi (Micro.bind_setInNmi (fetchWord_setInNmi ..) fun _ _ => subCall_setInNmi ..) h
  | jpHl => exact Micro.outcome_setInNmi (indexedJump_setInNmi ..) h
  | jpIx => exact Micro.outcome_setInNmi (indexedJump_setInNmi ..) h
  | jpIy => exact Micro.outcome_setInNmi (indexedJump_setInNmi ..) h
  | retn => exact absurd rfl hi
  | reti => exact Micro.outcome_setInNmi (subReturn_setInNmi ..) h

/-- An operation other than `RETN` leaves `IN_NMI` as it was: given the state's own value, it would leave that. -/
theorem exec_inNmi {i : Instr} (hi : i ≠ .retn) {s t : State} (h : exec i s = .next t) : t.inNmi = s.inNmi := by
  have hself := exec_setInNmi hi h s.inNmi
  rw [State.setInNmi_self, h] at hself
  injection hself with ht
  rw [ht, State.setInNmi_inNmi]

theorem exec_retn_inNmi {s t : State} (h : exec .retn s = .next t) : t.inNmi = false := by
  cases nmiReturn_eq_ok (Micro.outcome_eq_next h)
  rfl

/-- The last value written to `IN_NMI` stays: a completed `EndNmi` gives the same from any `IN_NMI`. -/
theorem endNmi_setInNmi_of_ok {s t : State} (h : endNmi s = .ok () t) (v : Bool) :
    endNmi (s.setInNmi v) = .ok () t := by
  obtain ⟨hanswer, hnot⟩ := askEnv_eq_ok h
  cases hanswer
  exact if_neg hnot

/-- `RETN` does not read the `IN_NMI` that it clears. -/
theorem exec_retn_setInNmi {s t : State} (h : exec .retn s = .next t) (v : Bool) :
    exec .retn (s.setInNmi v) = .next t := by
  obtain ⟨_, u, hreturn, hend⟩ := Micro.bind_eq_ok (Micro.outcome_eq_next h)
  have hreturn' : subReturn (s.setInNmi v) = .ok () (u.setInNmi v) := by rw [subReturn_setInNmi, hreturn]; rfl
  rw [exec, execRetn, nmiReturn, hreturn', Micro.bind_ok, endNmi_setInNmi_of_ok hend, Micro.outcome_ok]

/-- An accepted non-maskable interrupt sets `IN_NMI` after its call (60_exceptions.md R126, R127). -/
theorem nmiEntry_inNmi {handler : Word} {s t : State} (h : nmiEntry handler s = .ok () t) : t.inNmi = true := by
  obtain ⟨_, u, -, hset⟩ := Micro.bind_eq_ok h
  cases hset
  rfl

/-- Settles O34: `RETN` apart, no operation reads or writes `IN_NMI` (R22). -/
theorem inNmiClearedByRetnAloneReadByNone : Obligations.InNmiClearedByRetnAloneReadByNone := by
  refine ⟨fun i s t h => ?_, fun i s t v h => ?_, fun handler s t h => nmiEntry_inNmi (Micro.outcome_eq_next h)⟩
  · split
    · next hretn =>
      subst hretn
      exact exec_retn_inNmi h
    · next hother => exact exec_inNmi hother h
  · split
    · next hretn =>
      subst hretn
      exact exec_retn_setInNmi h v
    · next hother => exact exec_setInNmi hother h v

end Sys2Proof.Machine

/-!
The encodings of 30_encoding.md. An encoder puts fields into bits that are otherwise fixed, so a decoder gives back
what was encoded once each field does: the condition descriptor (R53), the restart vector (R54), the operand (R55,
R57), and the three fields of the select word (R52).
-/

namespace Sys2Proof

/-! ## The fields -/

@[simp] theorem Flag.ofCode_code (f : Flag) : Flag.ofCode f.code = f := by cases f <;> rfl

/-- A descriptor is its code (R53). -/
@[simp] theorem Cond.ofCode_code (cc : Cond) : Cond.ofCode cc.code = cc := by
  have hflag : cc.code.extractLsb' 1 2 = cc.flag.code := BitVec.extractLsb'_append_eq_left
  have hexpected : cc.code.getLsbD 0 = cc.expected := by
    rw [Cond.code, BitVec.getLsbD_append]
    simp
  rw [Cond.ofCode, hflag, hexpected, Flag.ofCode_code]

/-- The conditions of `JR cc` are those whose code has a 0 above the field `cc` (R62). -/
theorem Cond.code_msb (cc : Cond) : cc.code.msb = !cc.hasRelativeByte := by
  obtain ⟨flag, expected⟩ := cc
  cases flag <;> cases expected <;> rfl

/-- A vector of the decoder is nothing but its field `ttt` (R54). -/
theorem fieldVector_of_mem_vectorSet : ∀ v ∈ Config.vectorSet, fieldVector v = v := by decide

/-! ## Opcode bytes with a field (R62) -/

theorem decode_jrCc_byte (k : BitVec 3) (h : k.msb = false) :
    decode [withField 0x20 k] = .op (.jrCc (Cond.ofCode k)) [] := by
  revert k
  decide

theorem decode_retCc_byte (k : BitVec 3) : decode [withField 0xC0 k] = .op (.retCc (Cond.ofCode k)) [] := by
  revert k
  decide

theorem decode_jpCc_byte (k : BitVec 3) : decode [withField 0xC2 k] = .op (.jpCc (Cond.ofCode k)) [] := by
  revert k
  decide

theorem decode_callCc_byte (k : BitVec 3) : decode [withField 0xC4 k] = .op (.callCc (Cond.ofCode k)) [] := by
  revert k
  decide

theorem decode_rst_byte (k : BitVec 3) : decode [withField 0xC7 k] = .op (.rst ((0#2 ++ k) ++ 0#3)) [] := by
  revert k
  decide

/-! ## The round trip of whole instructions -/

/-- The opcode byte(s) of a well-formed operation decode to it (R62). -/
theorem decode_encode {i : Instr} (hw : i.wellFormed = true) : decode (encode i) = .op i [] := by
  cases i with
  | jrCc cc =>
    have hrel : cc.hasRelativeByte = true := hw
    rw [encode, decode_jrCc_byte cc.code (by rw [Cond.code_msb, hrel]; rfl), Cond.ofCode_code]
  | retCc cc => rw [encode, decode_retCc_byte, Cond.ofCode_code]
  | jpCc cc => rw [encode, decode_jpCc_byte, Cond.ofCode_code]
  | callCc cc => rw [encode, decode_callCc_byte, Cond.ofCode_code]
  | rst v =>
    have hfield : (0#2 ++ v.extractLsb' 3 3) ++ 0#3 = v :=
      fieldVector_of_mem_vectorSet v (List.contains_iff_mem.1 hw)
    rw [encode, decode_rst_byte, hfield]
  | djnz | jr | jp | ret | call | jpHl | jpIx | jpIy | retn | reti => rfl

/-- Operand bytes decode to the operand and hand on what follows (R55), an address with its low byte first (R57). -/
theorem decodeOperand_encodeOperand {o : Operand} {f : Format} (hfit : o.fits f = true) (rest : List Byte) :
    decodeOperand f (encodeOperand o ++ rest) = some (o, rest) := by
  cases o with
  | absent =>
    cases f with
    | n => rfl
    | d | nn => cases hfit
  | disp d =>
    cases f with
    | d => rfl
    | n | nn => cases hfit
  | addr nn =>
    cases f with
    | nn =>
      have hbytes : nn.extractLsb' 8 8 ++ nn.extractLsb' 0 8 = nn := BitVec.extractLsb'_append_extractLsb'
      rw [encodeOperand, List.cons_append, List.cons_append, decodeOperand, hbytes, List.nil_append]
    | n | d => cases hfit

/-- Settles O1: first the opcode is given back, then the operand (R55, R57, R62). -/
theorem decodeOfEncodeGivesInstructionBack : Obligations.DecodeOfEncodeGivesInstructionBack := by
  intro i o rest hw hfit
  have hopcode : decode (encode i ++ (encodeOperand o ++ rest)) = .op i (encodeOperand o ++ rest) :=
    decodeWith_op_append (decode_encode hw)
  simp only [decodeWhole, encodeWhole, List.append_assoc, hopcode, decodeOperand_encodeOperand hfit]

/-! ## The select word (R52) -/

section SelectWord

variable (kind : BitVec 4) (cc : BitVec 3) (v : Byte)

@[simp] theorem cmdKind_mkCmd : cmdKind (mkCmd kind cc v) = kind :=
  (BitVec.extractLsb'_append_eq_of_le (by decide)).trans BitVec.extractLsb'_append_eq_left

@[simp] theorem cmdCc_mkCmd : cmdCc (mkCmd kind cc v) = cc :=
  (BitVec.extractLsb'_append_eq_of_le (by decide)).trans BitVec.extractLsb'_append_eq_right

@[simp] theorem cmdVec_mkCmd : cmdVec (mkCmd kind cc v) = v := BitVec.extractLsb'_append_eq_right

end SelectWord

section ConditionalKinds

variable (cc : Cond) (v : Byte) (x : IndexReg)

theorem decodeCmd_jrCc : decodeCmd (mkCmd 1 cc.code v) x = some (.jrCc cc) := by simp [decodeCmd]

theorem decodeCmd_jpCc : decodeCmd (mkCmd 3 cc.code v) x = some (.jpCc cc) := by simp [decodeCmd]

theorem decodeCmd_callCc : decodeCmd (mkCmd 6 cc.code v) x = some (.callCc cc) := by simp [decodeCmd]

theorem decodeCmd_retCc : decodeCmd (mkCmd 9 cc.code v) x = some (.retCc cc) := by simp [decodeCmd]

end ConditionalKinds

/-- The select word of an operation selects it. -/
theorem decodeCmd_encodeCmd (i : Instr) : decodeCmd (encodeCmd i) i.selectedIndex = some i := by
  cases i with
  | jrCc cc => exact decodeCmd_jrCc ..
  | jpCc cc => exact decodeCmd_jpCc ..
  | callCc cc => exact decodeCmd_callCc ..
  | retCc cc => exact decodeCmd_retCc ..
  | rst v => simp [decodeCmd, encodeCmd, Instr.kind, Instr.vecField]
  | djnz | jr | jp | ret | call | jpHl | jpIx | jpIy | retn | reti => rfl

/-- The reserved kinds select nothing (R61). -/
theorem decodeCmd_reserved {cmd : BitVec 15} (h : 13 ≤ (cmdKind cmd).toNat) (x : IndexReg) :
    decodeCmd cmd x = none := by
  obtain ⟨n, hn⟩ := Nat.exists_eq_add_of_le' h
  rw [decodeCmd, hn]
  rfl

/-- A select word selects by its kind and by the fields that the kind reads: `CC` for the conditional kinds, `VEC`
for `RST` (R52, R61). -/
theorem decodeCmd_mkCmd_congr {kind : BitVec 4} {cc cc' : BitVec 3} {v v' : Byte}
    (hcc : kind ∈ ([1, 3, 6, 9] : List (BitVec 4)) → cc = cc') (hvec : kind = 7 → v = v') (x : IndexReg) :
    decodeCmd (mkCmd kind cc v) x = decodeCmd (mkCmd kind cc' v') x := by
  simp only [decodeCmd, cmdKind_mkCmd, cmdCc_mkCmd, cmdVec_mkCmd]
  split
  case h_2 _ hkind | h_4 _ hkind | h_7 _ hkind | h_10 _ hkind => rw [hcc (by simp [BitVec.toNat_eq, hkind])]
  case h_8 _ hkind => rw [hvec (BitVec.eq_of_toNat_eq hkind)]
  all_goals rfl

namespace Machine

/-- Settles O6: the table of R53, and the conditional kinds of R50 that carry a descriptor. -/
theorem eightConditionDescriptors : Obligations.EightConditionDescriptors :=
  ⟨rfl, rfl, rfl, rfl, rfl, rfl, rfl, rfl, rfl, fun cc v x =>
    ⟨decodeCmd_jrCc cc v x, decodeCmd_jpCc cc v x, decodeCmd_callCc cc v x, decodeCmd_retCc cc v x⟩⟩

theorem startOperation_of_decodeCmd {cmd : BitVec 15} {x : IndexReg} {i : Instr} (h : decodeCmd cmd x = some i)
    (s : State) : startOperation cmd x s = exec i s := by
  rw [startOperation, h]

/-- Settles O7: the select word decodes to its operation (R52). -/
theorem selectWordStartsItsOperation : Obligations.SelectWordStartsItsOperation :=
  fun i => startOperation_of_decodeCmd (decodeCmd_encodeCmd i)

/-- Settles O8: a reserved kind selects nothing, and a select word selects by the fields its kind reads (R61). -/
theorem reservedKindsRefusedUnreadFieldsIgnored : Obligations.ReservedKindsRefusedUnreadFieldsIgnored := by
  refine ⟨fun cmd x s h => ?_, fun kind cc cc' v v' x s hcc hvec => ?_⟩
  · rw [startOperation, decodeCmd_reserved h]
  · rw [startOperation, startOperation, decodeCmd_mkCmd_congr hcc hvec, cmdKind_mkCmd, cmdKind_mkCmd]

end Machine

end Sys2Proof

/-!
The program-counter arithmetic of 40_pc_alu_relative.md: sign extension said once per sign of the displacement, and
an operand fetch that the environment lets fail.
-/

namespace Sys2Proof.Machine

/-! ## Sign extension (R74) -/

theorem sext16_toNat (d : Byte) : (sext16 d).toNat = d.toNat + if d.toNat < 128 then 0 else 65280 := by
  rw [sext16, BitVec.toNat_signExtend, BitVec.toNat_setWidth_of_le (by decide), BitVec.msb_eq_decide]
  by_cases h : d.toNat < 128
  · simp [h]
  · simp [h]

theorem sext16_toNat_of_lt {d : Byte} (h : d.toNat < 128) : (sext16 d).toNat = d.toNat := by
  rw [sext16_toNat, if_pos h, Nat.add_zero]

theorem sext16_toNat_of_ge {d : Byte} (h : 128 ≤ d.toNat) : (sext16 d).toNat = d.toNat + 65280 := by
  rw [sext16_toNat, if_neg (Nat.not_lt.2 h)]

theorem relJump_eq (d : Byte) (s : State) : relJump d s = .ok () (s.setPc (s.pc + sext16 d)) := rfl

/-- Settles O12: adding the sign extension, written out for a displacement below 128 and from 128 on (R74). -/
theorem relativeJumpAddsSignedDisplacement : Obligations.RelativeJumpAddsSignedDisplacement := by
  intro s d
  have hd : d.toNat < 256 := d.isLt
  refine ⟨_, relJump_eq d s, rfl, ?_⟩
  rw [State.setPc_pc, BitVec.toNat_add]
  by_cases h : d.toNat < 128
  · rw [sext16_toNat_of_lt h, if_pos h]
    omega
  · rw [sext16_toNat_of_ge (Nat.le_of_not_lt h), if_neg h]
    omega

/-! ## A failing environment operation (60_exceptions.md R121) -/

theorem askEnv_of_failing {α : Type} {call : EnvCall} {s : State} (h : call ∈ s.env.failing) (k : Micro α) :
    askEnv call s k = .fault (.envFail call s) := if_pos h

theorem State.FailsOnly.mem_failing {s : State} {call : EnvCall} (h : s.FailsOnly call) :
    call ∈ s.env.failing := by
  rw [h]
  exact List.mem_singleton_self call

theorem fetchByte_of_failing {s : State} (h : .memRead s.pc ∈ s.env.failing) :
    fetchByte s = .fault (.envFail (.memRead s.pc) s) := by
  rw [fetchByte, readMem, askEnv_of_failing h, Micro.bind_fault]

/-! ## `JR d` (R75) -/

theorem exec_jr (s : State) : exec .jr s = ((fetchByte s).bind relJump).outcome := rfl

theorem exec_jr_plain {s : State} (h : s.Plain) :
    exec .jr s = .next (s.setPc (s.pc + 1#16 + sext16 (s.byteAt s.pc))) := by
  rw [exec_jr, fetchByte_plain h, Micro.bind_ok, relJump_eq, Micro.outcome_ok, State.setPc_pc, State.setPc_setPc]

theorem exec_jr_stopsAt_operand : StopsAt .jr (fun s => .memRead s.pc) id (fun _ => True) := by
  intro s hfail _
  rw [exec_jr, fetchByte_of_failing hfail.mem_failing, Micro.bind_fault, Micro.outcome_fault, id]

/-- Settles O15: `JR d` is the operand fetch, then `RelJump` from the `PC` that the fetch leaves (R70, R73, R75). -/
theorem jrJumpsRelativeToNextInstruction : Obligations.JrJumpsRelativeToNextInstruction :=
  ⟨fun _ => exec_jr_plain, exec_jr_stopsAt_operand, fun _ => rfl, rfl⟩

end Sys2Proof.Machine

/-!
The jumps of 41_jumps.md: `JP nn` is the operand word, then the load of `PC`; the three index jumps are one
operation over the register that the decoder has selected. With them stands the fetch of an operand word whose low or
high byte fails.
-/

namespace Sys2Proof

/-! ## The select word of the index jump -/

/-- Kind 4 selects the jump through the register that the decoder has resolved (R52). -/
theorem decodeCmd_indexJump (cc : BitVec 3) (v : Byte) (x : IndexReg) :
    decodeCmd (mkCmd 4 cc v) x = some (indexJump x) := by simp [decodeCmd]

@[simp] theorem indexJump_selectedIndex (x : IndexReg) : (indexJump x).selectedIndex = x := by cases x <;> rfl

theorem indexJump_ne_jp (x : IndexReg) : indexJump x ≠ .jp := by cases x <;> decide

namespace Machine

/-! ## Reads of which one fails (60_exceptions.md R121, R122) -/

theorem askEnv_of_not_failing {α : Type} {call : EnvCall} {s : State} (h : call ∉ s.env.failing) (k : Micro α) :
    askEnv call s k = k := if_neg h

theorem readMem_of_failing {a : Word} {s : State} (h : .memRead a ∈ s.env.failing) :
    readMem a s = .fault (.envFail (.memRead a) s) := askEnv_of_failing h _

/-- Where one call alone fails, a read that is not that call completes. -/
theorem readMem_of_failsOnly {call : EnvCall} {a : Word} {s : State} (h : s.FailsOnly call)
    (hne : .memRead a ≠ call) : readMem a s = .ok (s.byteAt a) s := by
  have hanswers : .memRead a ∉ s.env.failing := by simpa [h] using hne
  have hram : regionKind s.env.memMap a = .ram := by rw [h]; rfl
  rw [readMem, askEnv_of_not_failing hanswers, hram]

theorem fetchWord_of_failing_low {s : State} (h : .memRead s.pc ∈ s.env.failing) :
    fetchWord s = .fault (.envFail (.memRead s.pc) s) := by
  rw [fetchWord, readMem16, readMem_of_failing h, Micro.bind_fault, Micro.bind_fault]

/-- `PC` moves after both reads, so a failing second read leaves it where it was (R71). -/
theorem fetchWord_of_failsOnly_high {s : State} (h : s.FailsOnly (.memRead (s.pc + 1#16))) :
    fetchWord s = .fault (.envFail (.memRead (s.pc + 1#16)) s) := by
  have hne : EnvCall.memRead s.pc ≠ .memRead (s.pc + 1#16) := by
    rw [ne_eq, EnvCall.memRead.injEq]
    bv_omega
  rw [fetchWord, readMem16, readMem_of_failsOnly h hne, Micro.bind_ok, readMem_of_failing h.mem_failing,
    Micro.bind_fault, Micro.bind_fault]

/-! ## `JP nn` (R80) -/

theorem loadPc_eq (v : Word) (s : State) : loadPc v s = .ok () (s.setPc v) := rfl

theorem exec_jp (s : State) : exec .jp s = ((fetchWord s).bind loadPc).outcome := rfl

theorem exec_jp_plain {s : State} (h : s.Plain) : exec .jp s = .next (s.setPc (s.wordAt s.pc)) := by
  rw [exec_jp, fetchWord_plain h, Micro.bind_ok, loadPc_eq, Micro.outcome_ok, State.setPc_setPc]

/-- In any environment, a completed `JP nn` has loaded `PC` with its operand and done nothing else. -/
theorem exec_jp_eq_next {s t : State} (h : exec .jp s = .next t) : t = s.setPc (s.wordAt s.pc) := by
  obtain ⟨imm, u, hfetch, hload⟩ := Micro.bind_eq_ok (Micro.outcome_eq_next h)
  obtain ⟨rfl, rfl⟩ := fetchWord_eq_ok hfetch
  cases hload
  rfl

theorem exec_jp_stopsAt_low : StopsAt .jp (fun s => .memRead s.pc) id (fun _ => True) := by
  intro s hfail _
  rw [exec_jp, fetchWord_of_failing_low hfail.mem_failing, Micro.bind_fault, Micro.outcome_fault, id]

theorem exec_jp_stopsAt_high : StopsAt .jp (fun s => .memRead (s.pc + 1#16)) id (fun _ => True) := by
  intro s hfail _
  rw [exec_jp, fetchWord_of_failsOnly_high hfail, Micro.bind_fault, Micro.outcome_fault, id]

/-- Settles O17: `JP nn` is the operand fetch, low byte first, then the load of `PC` (R71, R80). -/
theorem jpLoadsLittleEndianOperand : Obligations.JpLoadsLittleEndianOperand :=
  ⟨fun _ => exec_jp_plain, exec_jp_stopsAt_low, exec_jp_stopsAt_high, fun _ => rfl, fun _ _ => rfl⟩

/-! ## `JP (HL)`, `JP (IX)`, `JP (IY)` (R81) -/

theorem exec_indexJump (x : IndexReg) (s : State) : exec (indexJump x) s = (indexedJump x s).outcome := by
  cases x <;> rfl

/-- The register's answer is all that the jump needs of the environment. -/
theorem exec_indexJump_of_not_failing {s : State} (h : .indexValue ∉ s.env.failing) (x : IndexReg) :
    exec (indexJump x) s = .next (s.setPc (s.index x)) := by
  rw [exec_indexJump, indexedJump, indexValue, askEnv_of_not_failing h, Micro.bind_ok, loadPc_eq, Micro.outcome_ok]

theorem exec_indexJump_of_failing {s : State} (h : .indexValue ∈ s.env.failing) (x : IndexReg) :
    exec (indexJump x) s = .fault (.envFail .indexValue s) := by
  rw [exec_indexJump, indexedJump, indexValue, askEnv_of_failing h, Micro.bind_fault, Micro.outcome_fault]

/-- In any environment, a completed index jump has loaded `PC` with its register and done nothing else. -/
theorem exec_indexJump_eq_next {x : IndexReg} {s t : State} (h : exec (indexJump x) s = .next t) :
    t = s.setPc (s.index x) := by
  rw [exec_indexJump] at h
  exact indexedJump_eq_ok (Micro.outcome_eq_next h)

/-- Settles O19: the index jump, run and decoded, for each of the three registers (R81). -/
theorem indexJumpLoadsRegisterValue : Obligations.IndexJumpLoadsRegisterValue := by
  refine ⟨fun s h => ?_, fun s h => ?_, ?_⟩
  · have hjump := exec_indexJump_of_not_failing h
    exact ⟨hjump .hl, hjump .ix, hjump .iy⟩
  · have hstop := exec_indexJump_of_failing h
    exact ⟨hstop .hl, hstop .ix, hstop .iy⟩
  · have hselect := decodeCmd_indexJump 0 0
    exact ⟨hselect .hl, hselect .ix, hselect .iy, rfl, rfl, rfl⟩

/-! ## Neither jump links (R82) -/

theorem exists_eq_indexJump {i : Instr} (h : i = .jpHl ∨ i = .jpIx ∨ i = .jpIy) : ∃ x, i = indexJump x := by
  rcases h with rfl | rfl | rfl
  · exact ⟨.hl, rfl⟩
  · exact ⟨.ix, rfl⟩
  · exact ⟨.iy, rfl⟩

/-- Settles O20: a completed jump, absolute (R80) or through a register (R81), is a load of `PC` alone. -/
theorem jumpsDoNotLink : Obligations.JumpsDoNotLink := by
  rintro i s t (rfl | hindex) h
  · rw [if_pos rfl]
    exact exec_jp_eq_next h
  · obtain ⟨x, rfl⟩ := exists_eq_indexJump hindex
    rw [if_neg (indexJump_ne_jp x), indexJump_selectedIndex]
    exact exec_indexJump_eq_next h

end Machine

end Sys2Proof

/-!
The conditional operations of 42_conditional.md. Each is its unconditional operation with the evaluation of R86
between the operand fetch and the effect. So where the flag is read and the condition holds it is that operation,
failures included; where the condition does not hold it is the operand fetch alone (R85, R91). The failing sub-steps
of pushes and pops stand here too, for the operations that may or may not get to them (R122).
-/

namespace Sys2Proof

/-! ## Condition bytes (R53, R62) -/

/-- The field `ccc` in place, written as a shift. -/
theorem withField_eq_or_shiftLeft (base : Byte) (k : BitVec 3) :
    withField base k = base ||| (k.zeroExtend 8 <<< 3) := by
  have hfield : ((0#2 ++ k) ++ 0#3 : Byte) = k.zeroExtend 8 <<< 3 := by
    revert k
    decide
  rw [withField, hfield]

theorem lookupRow_eq_some {rows : List OpcodeRow} {b : Byte} {i : Instr} (h : lookupRow rows b = some i) :
    ∃ r ∈ rows, r.build b = i := by
  induction rows with
  | nil => cases h
  | cons r more ih =>
    rw [lookupRow] at h
    split at h
    · exact ⟨r, List.mem_cons_self, Option.some.inj h⟩
    · obtain ⟨r', hmem, hbuild⟩ := ih h
      exact ⟨r', List.mem_cons_of_mem r hmem, hbuild⟩

/-- An operation of one byte comes from the rows of the first byte. -/
theorem lookupRow_of_decode_singleton {b : Byte} {i : Instr} {rest : List Byte} (h : decode [b] = .op i rest) :
    lookupRow (firstByteRows .hl) b = some i := by
  rw [decode, decodeWith] at h
  split at h
  · cases h
  · split at h
    · cases h
    · split at h
      · next hrow =>
        cases h
        exact hrow
      · cases h

/-- The field `cc` has a 0 above it, so it names Z or C (R62). -/
theorem fieldCc_flag (b : Byte) : (fieldCc b).flag = .z ∨ (fieldCc b).flag = .c := by
  rw [fieldCc]
  generalize b.extractLsb' 3 2 = k
  revert k
  decide

/-- One row of R62 alone makes a `JR cc`, from the field `cc`. -/
theorem eq_fieldCc_of_decode_jrCc {b : Byte} {cc : Cond} {rest : List Byte}
    (h : decode [b] = .op (.jrCc cc) rest) : cc = fieldCc b := by
  obtain ⟨r, hmem, hbuild⟩ := lookupRow_eq_some (lookupRow_of_decode_singleton h)
  simp only [firstByteRows, indexJump, List.mem_cons, List.not_mem_nil, or_false] at hmem
  rcases hmem with rfl | rfl | rfl | rfl | rfl | rfl | rfl | rfl | rfl | rfl | rfl <;> cases hbuild
  rfl

namespace Machine

/-! ## `CondTrue` (R86) -/

@[simp] theorem condHolds_true (f : Flag) (fl : Flags) : condHolds ⟨f, true⟩ fl = fl.get f :=
  beq_true (fl.get f)

@[simp] theorem condHolds_false (f : Flag) (fl : Flags) : condHolds ⟨f, false⟩ fl = !fl.get f :=
  beq_false (fl.get f)

theorem condHolds_congr {cc : Cond} {fl fl' : Flags} (h : fl.get cc.flag = fl'.get cc.flag) :
    condHolds cc fl = condHolds cc fl' := by
  rw [condHolds, condHolds, h]

/-- Settles O14: `CondTrue` answers whether the condition holds, which is the flag or its complement by the
expected value (R86). -/
theorem condTrueTruthTable : Obligations.CondTrueTruthTable := by
  refine ⟨fun s h => ?_, fun cc fl fl' => condHolds_congr, fun f fl => ?_⟩
  · have hfalse (f : Flag) : condTrue ⟨f, false⟩ s = .ok (!s.flags.get f) s := by
      rw [condTrue_plain h, condHolds_false]
    have htrue (f : Flag) : condTrue ⟨f, true⟩ s = .ok (s.flags.get f) s := by
      rw [condTrue_plain h, condHolds_true]
    exact ⟨hfalse .z, htrue .z, hfalse .c, htrue .c, hfalse .pv, htrue .pv, hfalse .s, htrue .s, condTrue_plain h⟩
  · rw [condHolds_true, condHolds_false, Bool.not_not]

/-! ## Which environment operations answer -/

theorem State.Plain.not_mem_failing {s : State} (h : s.Plain) (call : EnvCall) : call ∉ s.env.failing := by
  rw [h]
  exact List.not_mem_nil

theorem State.FailsOnly.not_mem_failing {s : State} {call other : EnvCall} (h : s.FailsOnly call)
    (hne : other ≠ call) : other ∉ s.env.failing := by
  rw [h]
  exact fun hmem => hne (List.mem_singleton.1 hmem)

theorem fetchByte_of_failsOnly {call : EnvCall} {s : State} (h : s.FailsOnly call)
    (hne : .memRead s.pc ≠ call) : fetchByte s = .ok (s.byteAt s.pc) (s.setPc (s.pc + 1#16)) := by
  rw [fetchByte, readMem_of_failsOnly h hne, Micro.bind_ok]

theorem fetchWord_of_failsOnly {call : EnvCall} {s : State} (h : s.FailsOnly call)
    (hlow : .memRead s.pc ≠ call) (hhigh : .memRead (s.pc + 1#16) ≠ call) :
    fetchWord s = .ok (s.wordAt s.pc) (s.setPc (s.pc + 2#16)) := by
  rw [fetchWord, readMem16, readMem_of_failsOnly h hlow, Micro.bind_ok, readMem_of_failsOnly h hhigh, Micro.bind_ok,
    Micro.bind_ok, State.wordAt]

/-! ## The evaluation before an effect (R85) -/

section Evaluation

variable {cc : Cond} {s : State}

theorem condTrue_of_not_failing (h : .getFlag cc.flag ∉ s.env.failing) :
    condTrue cc s = .ok (condHolds cc s.flags) s := by
  rw [condTrue, readFlag, askEnv_of_not_failing h, Micro.bind_ok, condHolds]

theorem whenCond_of_failing (h : .getFlag cc.flag ∈ s.env.failing) (effect : State → Micro Unit) :
    whenCond cc effect s = .fault (.envFail (.getFlag cc.flag) s) := by
  rw [whenCond, condTrue, readFlag, askEnv_of_failing h, Micro.bind_fault, Micro.bind_fault]

theorem whenCond_of_not_failing (h : .getFlag cc.flag ∉ s.env.failing) (effect : State → Micro Unit) :
    whenCond cc effect s = if condHolds cc s.flags then effect s else .ok () s := by
  rw [whenCond, condTrue_of_not_failing h, Micro.bind_ok]

/-- An operand fetch leaves the flags and the environment, so the condition is that of the state before it: it
decides between the fetch with its effect and the fetch alone. -/
theorem Micro.bind_whenCond {α : Type} {m : Micro α} (hkeep : ∀ {a t}, m = .ok a t → SameOutsideCtd s t)
    (h : .getFlag cc.flag ∉ s.env.failing) (effect : α → State → Micro Unit) :
    (m.bind fun a => whenCond cc (effect a)) =
      if condHolds cc s.flags then m.bind effect else m.bind fun _ => .ok () := by
  cases hm : m with
  | ok a t =>
    obtain ⟨hflags, -, -, -, henv⟩ := hkeep hm
    rw [← henv] at h
    rw [Micro.bind_ok, Micro.bind_ok, Micro.bind_ok, whenCond_of_not_failing h, hflags]
  | fault r => exact (ite_self _).symm
  | refuse r => exact (ite_self _).symm

end Evaluation

/-! ## The four conditional operations and their unconditional ones -/

theorem exec_jrCc (cc : Cond) (s : State) :
    exec (.jrCc cc) s = ((fetchByte s).bind fun d => whenCond cc (relJump d)).outcome := rfl

theorem exec_jpCc (cc : Cond) (s : State) :
    exec (.jpCc cc) s = ((fetchWord s).bind fun nn => whenCond cc (loadPc nn)).outcome := rfl

theorem exec_callCc (cc : Cond) (s : State) :
    exec (.callCc cc) s = ((fetchWord s).bind fun nn => whenCond cc (subCall nn)).outcome := rfl

theorem exec_retCc (cc : Cond) (s : State) : exec (.retCc cc) s = (whenCond cc subReturn s).outcome := rfl

theorem exec_call (s : State) : exec .call s = ((fetchWord s).bind subCall).outcome := rfl

theorem exec_ret (s : State) : exec .ret s = (subReturn s).outcome := rfl

section Taken

variable {cc : Cond} {s : State} (h : .getFlag cc.flag ∉ s.env.failing) (hc : condHolds cc s.flags = true)
include h hc

theorem exec_jrCc_of_holds : exec (.jrCc cc) s = exec .jr s := by
  rw [exec_jrCc, exec_jr, Micro.bind_whenCond fetchByte_sameOutsideCtd h, if_pos hc]

theorem exec_jpCc_of_holds : exec (.jpCc cc) s = exec .jp s := by
  rw [exec_jpCc, exec_jp, Micro.bind_whenCond fetchWord_sameOutsideCtd h, if_pos hc]

theorem exec_callCc_of_holds : exec (.callCc cc) s = exec .call s := by
  rw [exec_callCc, exec_call, Micro.bind_whenCond fetchWord_sameOutsideCtd h, if_pos hc]

theorem exec_retCc_of_holds : exec (.retCc cc) s = exec .ret s := by
  rw [exec_retCc, exec_ret, whenCond_of_not_failing h, if_pos hc]

end Taken

section NotTaken

variable {cc : Cond} {s : State} (hc : condHolds cc s.flags = false)
include hc

theorem exec_retCc_of_not_holds (h : .getFlag cc.flag ∉ s.env.failing) : exec (.retCc cc) s = .next s := by
  rw [exec_retCc, whenCond_of_not_failing h, hc, if_neg Bool.false_ne_true, Micro.outcome_ok]

variable (hp : s.Plain)
include hp

theorem exec_jrCc_plain_of_not_holds : exec (.jrCc cc) s = .next (s.setPc (s.pc + 1#16)) := by
  rw [exec_jrCc, Micro.bind_whenCond fetchByte_sameOutsideCtd (hp.not_mem_failing _), hc,
    if_neg Bool.false_ne_true, fetchByte_plain hp, Micro.bind_ok, Micro.outcome_ok]

theorem fetchWord_bind_whenCond_plain_of_not_holds (effect : Word → State → Micro Unit) :
    ((fetchWord s).bind fun nn => whenCond cc (effect nn)) = .ok () (s.setPc (s.pc + 2#16)) := by
  rw [Micro.bind_whenCond fetchWord_sameOutsideCtd (hp.not_mem_failing _), hc, if_neg Bool.false_ne_true,
    fetchWord_plain hp, Micro.bind_ok]

theorem exec_jpCc_plain_of_not_holds : exec (.jpCc cc) s = .next (s.setPc (s.pc + 2#16)) := by
  rw [exec_jpCc, fetchWord_bind_whenCond_plain_of_not_holds hc hp, Micro.outcome_ok]

theorem exec_callCc_plain_of_not_holds : exec (.callCc cc) s = .next (s.setPc (s.pc + 2#16)) := by
  rw [exec_callCc, fetchWord_bind_whenCond_plain_of_not_holds hc hp, Micro.outcome_ok]

end NotTaken

/-- Settles O42: the default environment reads the flag, and then the condition decides between the operand fetch
alone and the unconditional operation (R91). -/
theorem conditionalIsNothingOrUnconditional : Obligations.ConditionalIsNothingOrUnconditional := by
  intro cc s hp
  have hflag := hp.not_mem_failing (.getFlag cc.flag)
  exact ⟨fun hc => ⟨exec_jrCc_plain_of_not_holds hc hp, exec_jpCc_plain_of_not_holds hc hp,
      exec_callCc_plain_of_not_holds hc hp, exec_retCc_of_not_holds hc hflag⟩,
    fun hc => ⟨exec_jrCc_of_holds hflag hc, exec_jpCc_of_holds hflag hc, exec_callCc_of_holds hflag hc,
      exec_retCc_of_holds hflag hc⟩⟩

/-! ## Where the operations stop (60_exceptions.md R122) -/

section WordOperand

variable {i : Instr} {rest : Word → State → Micro Unit} (hi : ∀ s, exec i s = ((fetchWord s).bind rest).outcome)
include hi

theorem stopsAt_low_of_fetchWord : StopsAt i (fun s => .memRead s.pc) id (fun _ => True) := by
  intro s hfail _
  rw [hi, fetchWord_of_failing_low hfail.mem_failing, Micro.bind_fault, Micro.outcome_fault, id]

theorem stopsAt_high_of_fetchWord : StopsAt i (fun s => .memRead (s.pc + 1#16)) id (fun _ => True) := by
  intro s hfail _
  rw [hi, fetchWord_of_failsOnly_high hfail, Micro.bind_fault, Micro.outcome_fault, id]

end WordOperand

/-- The flag is read after the operand word, so `PC` has passed it. -/
theorem stopsAt_flag_of_fetchWord {i : Instr} {cc : Cond} {effect : Word → State → Micro Unit}
    (hi : ∀ s, exec i s = ((fetchWord s).bind fun nn => whenCond cc (effect nn)).outcome) :
    StopsAt i (fun _ => .getFlag cc.flag) (fun s => s.setPc (s.pc + 2#16)) (fun _ => True) := by
  intro s hfail _
  have hstop : .getFlag cc.flag ∈ (s.setPc (s.pc + 2#16)).env.failing := hfail.mem_failing
  rw [hi, fetchWord_of_failsOnly hfail nofun nofun, Micro.bind_ok, whenCond_of_failing hstop, Micro.outcome_fault]

/-- A conditional operation whose condition holds stops where its unconditional one does. -/
theorem StopsAt.of_holds {i j : Instr} {cc : Cond} {call : State → EnvCall} {left : State → State}
    (hij : ∀ s : State, .getFlag cc.flag ∉ s.env.failing → condHolds cc s.flags = true → exec i s = exec j s)
    (hne : ∀ s, .getFlag cc.flag ≠ call s) (hj : StopsAt j call left (fun _ => True)) :
    StopsAt i call left (fun s => condHolds cc s.flags = true) := by
  intro s hfail hc
  rw [hij s (hfail.not_mem_failing (hne s)) hc]
  exact hj s hfail trivial

/-! ## `JR cc, d` (R87) -/

theorem exec_jrCc_plain {s : State} (hp : s.Plain) (cc : Cond) :
    exec (.jrCc cc) s = .next (s.setPc
      (if condHolds cc s.flags then s.pc + 1#16 + sext16 (s.byteAt s.pc) else s.pc + 1#16)) := by
  cases hc : condHolds cc s.flags with
  | true => rw [if_pos rfl, exec_jrCc_of_holds (hp.not_mem_failing _) hc, exec_jr_plain hp]
  | false => rw [if_neg Bool.false_ne_true, exec_jrCc_plain_of_not_holds hc hp]

theorem exec_jrCc_stopsAt_operand (cc : Cond) : StopsAt (.jrCc cc) (fun s => .memRead s.pc) id (fun _ => True) := by
  intro s hfail _
  rw [exec_jrCc, fetchByte_of_failing hfail.mem_failing, Micro.bind_fault, Micro.outcome_fault, id]

theorem exec_jrCc_stopsAt_flag (cc : Cond) :
    StopsAt (.jrCc cc) (fun _ => .getFlag cc.flag) (fun s => s.setPc (s.pc + 1#16)) (fun _ => True) := by
  intro s hfail _
  have hstop : .getFlag cc.flag ∈ (s.setPc (s.pc + 1#16)).env.failing := hfail.mem_failing
  rw [exec_jrCc, fetchByte_of_failsOnly hfail nofun, Micro.bind_ok, whenCond_of_failing hstop, Micro.outcome_fault]

/-- Settles O16: `JR cc` run, stopped and decoded; its bytes reach Z and C alone (R62, R87). -/
theorem jrCcJumpsWhenConditionHolds : Obligations.JrCcJumpsWhenConditionHolds := by
  refine ⟨fun cc _ hp => exec_jrCc_plain hp cc,
    fun cc => ⟨exec_jrCc_stopsAt_operand cc, exec_jrCc_stopsAt_flag cc⟩,
    fun cc => decodeCmd_jrCc cc 0, rfl, rfl, rfl, rfl, fun b cc h => ?_⟩
  rw [eq_fieldCc_of_decode_jrCc h]
  exact fieldCc_flag b

/-! ## `JP cc, nn` (R88) -/

theorem exec_jpCc_plain {s : State} (hp : s.Plain) (cc : Cond) :
    exec (.jpCc cc) s = .next (s.setPc (if condHolds cc s.flags then s.wordAt s.pc else s.pc + 2#16)) := by
  cases hc : condHolds cc s.flags with
  | true => rw [if_pos rfl, exec_jpCc_of_holds (hp.not_mem_failing _) hc, exec_jp_plain hp]
  | false => rw [if_neg Bool.false_ne_true, exec_jpCc_plain_of_not_holds hc hp]

/-- Settles O18: `JP cc` is `JP nn` or the operand fetch alone (R88). -/
theorem jpCcJumpsWhenConditionHolds : Obligations.JpCcJumpsWhenConditionHolds := by
  refine ⟨fun cc _ hp => exec_jpCc_plain hp cc, fun cc => ?_, fun cc => decodeCmd_jpCc cc 0, fun cc => ?_⟩
  · exact ⟨stopsAt_low_of_fetchWord (exec_jpCc cc), stopsAt_high_of_fetchWord (exec_jpCc cc),
      stopsAt_flag_of_fetchWord (exec_jpCc cc)⟩
  · rw [← withField_eq_or_shiftLeft]
    exact decode_encode (i := .jpCc cc) rfl

/-! ## `CALL cc, nn` (R89) -/

/-- In the default environment a call leaves the return address on the stack, and nothing else is touched (R97). -/
theorem subCall_plain_calledFrom {s : State} (hp : s.Plain) (hinv : s.Inv) (addr : Word) :
    ∃ t, subCall addr s = .ok () t ∧ CalledFrom s s.pc addr t := by
  have hne : s.sp - 1#16 ≠ s.sp - 2#16 := by bv_omega
  refine ⟨_, subCall_eq_plain hp addr, rfl, rfl, ?_, ?_, fun a ha => ?_, rfl, rfl, rfl, rfl, rfl, rfl, rfl⟩
  · rw [State.setPc_byteAt, State.setSp_byteAt, State.storeByte_byteAt_other _ _ hne,
      State.storeByte_byteAt_same hinv]
  · rw [State.setPc_byteAt, State.setSp_byteAt, State.storeByte_byteAt_same (State.storeByte_wf hinv ..)]
  · simp only [List.mem_cons, List.not_mem_nil, or_false, not_or] at ha
    obtain ⟨hlow, hhigh⟩ := ha
    rw [State.setPc_byteAt, State.setSp_byteAt, State.storeByte_byteAt_other _ _ hlow,
      State.storeByte_byteAt_other _ _ hhigh]

/-- `CALL nn` pushes the address past its operand, which it has fetched before (R100). -/
theorem exec_call_plain_calledFrom {s : State} (hp : s.Plain) (hinv : s.Inv) :
    ∃ t, exec .call s = .next t ∧ CalledFrom s (s.pc + 2#16) (s.wordAt s.pc) t := by
  obtain ⟨t, hcall, hleft⟩ := subCall_plain_calledFrom (s := s.setPc (s.pc + 2#16)) hp hinv (s.wordAt s.pc)
  refine ⟨t, ?_, hleft⟩
  rw [exec_call, fetchWord_plain hp, Micro.bind_ok, hcall, Micro.outcome_ok]

theorem writeMem_of_failing {a : Word} {s : State} (h : .memWrite a ∈ s.env.failing) (v : Byte) :
    writeMem a v s = .fault (.envFail (.memWrite a) s) := askEnv_of_failing h _

/-- Where one call alone fails, a write that is not that call stores its byte. -/
theorem writeMem_of_failsOnly {call : EnvCall} {a : Word} {s : State} (h : s.FailsOnly call)
    (hne : .memWrite a ≠ call) (v : Byte) : writeMem a v s = .ok () (s.storeByte a v) := by
  have hram : regionKind s.env.memMap a = .ram := by rw [h]; rfl
  rw [writeMem, askEnv_of_not_failing (h.not_mem_failing hne), hram]

/-- The high byte is pushed first, so nothing is stored when it fails (R95). -/
theorem subCall_of_failing_high {s : State} (h : .memWrite (s.sp - 1#16) ∈ s.env.failing) (addr : Word) :
    subCall addr s = .fault (.envFail (.memWrite (s.sp - 1#16)) s) := by
  rw [subCall, push16, writeMem16, sp_sub_two_add_one, writeMem_of_failing h, Micro.bind_fault, Micro.bind_fault,
    Micro.bind_fault]

/-- When the low byte fails, the high byte is stored and `SP` has not moved (R95). -/
theorem subCall_of_failsOnly_low {s : State} (h : s.FailsOnly (.memWrite (s.sp - 2#16))) (addr : Word) :
    subCall addr s = .fault (.envFail (.memWrite (s.sp - 2#16))
      (s.storeByte (s.sp - 1#16) (s.pc.extractLsb' 8 8))) := by
  have hne : EnvCall.memWrite (s.sp - 1#16) ≠ .memWrite (s.sp - 2#16) := by
    rw [ne_eq, EnvCall.memWrite.injEq]
    bv_omega
  have hstop : .memWrite (s.sp - 2#16) ∈ (s.storeByte (s.sp - 1#16) (s.pc.extractLsb' 8 8)).env.failing :=
    h.mem_failing
  rw [subCall, push16, writeMem16, sp_sub_two_add_one, writeMem_of_failsOnly h hne, Micro.bind_ok,
    writeMem_of_failing hstop, Micro.bind_fault, Micro.bind_fault]

theorem exec_call_stopsAt_push_high :
    StopsAt .call (fun s => .memWrite (s.sp - 1#16)) (fun s => s.setPc (s.pc + 2#16)) (fun _ => True) := by
  intro s hfail _
  rw [exec_call, fetchWord_of_failsOnly hfail nofun nofun, Micro.bind_ok,
    subCall_of_failing_high (s := s.setPc (s.pc + 2#16)) hfail.mem_failing, Micro.outcome_fault, State.setPc_sp]

theorem exec_call_stopsAt_push_low :
    StopsAt .call (fun s => .memWrite (s.sp - 2#16))
      (fun s => (s.setPc (s.pc + 2#16)).storeByte (s.sp - 1#16) ((s.pc + 2#16).extractLsb' 8 8))
      (fun _ => True) := by
  intro s hfail _
  rw [exec_call, fetchWord_of_failsOnly hfail nofun nofun, Micro.bind_ok,
    subCall_of_failsOnly_low (s := s.setPc (s.pc + 2#16)) hfail, Micro.outcome_fault, State.setPc_sp, State.setPc_pc]

/-- Settles O22: `CALL cc` is `CALL nn` or the operand fetch alone (R89). -/
theorem callCcPushesOnlyWhenTaken : Obligations.CallCcPushesOnlyWhenTaken := by
  refine ⟨fun cc s hp hinv hc => ?_, fun cc s hp hc => exec_callCc_plain_of_not_holds hc hp, fun cc => ?_,
    fun cc => decodeCmd_callCc cc 0, fun cc => ?_⟩
  · rw [exec_callCc_of_holds (hp.not_mem_failing _) hc]
    exact exec_call_plain_calledFrom hp hinv
  · exact ⟨stopsAt_low_of_fetchWord (exec_callCc cc), stopsAt_high_of_fetchWord (exec_callCc cc),
      stopsAt_flag_of_fetchWord (exec_callCc cc),
      exec_call_stopsAt_push_high.of_holds (fun _ => exec_callCc_of_holds) nofun,
      exec_call_stopsAt_push_low.of_holds (fun _ => exec_callCc_of_holds) nofun⟩
  · rw [← withField_eq_or_shiftLeft]
    exact decode_encode (i := .callCc cc) rfl

/-! ## `RET cc` (R90) -/

theorem exec_ret_plain {s : State} (hp : s.Plain) :
    exec .ret s = .next ((s.setSp (s.sp + 2#16)).setPc (s.wordAt s.sp)) := by
  rw [exec_ret, subReturn_plain hp, Micro.outcome_ok]

theorem subReturn_of_failing_low {s : State} (h : .memRead s.sp ∈ s.env.failing) :
    subReturn s = .fault (.envFail (.memRead s.sp) s) := by
  rw [subReturn, pop16, readMem16, readMem_of_failing h, Micro.bind_fault, Micro.bind_fault, Micro.bind_fault]

/-- `SP` moves after both reads, so a failing second read leaves it where it was (R96). -/
theorem subReturn_of_failsOnly_high {s : State} (h : s.FailsOnly (.memRead (s.sp + 1#16))) :
    subReturn s = .fault (.envFail (.memRead (s.sp + 1#16)) s) := by
  have hne : EnvCall.memRead s.sp ≠ .memRead (s.sp + 1#16) := by
    rw [ne_eq, EnvCall.memRead.injEq]
    bv_omega
  rw [subReturn, pop16, readMem16, readMem_of_failsOnly h hne, Micro.bind_ok, readMem_of_failing h.mem_failing,
    Micro.bind_fault, Micro.bind_fault, Micro.bind_fault]

theorem exec_ret_stopsAt_low : StopsAt .ret (fun s => .memRead s.sp) id (fun _ => True) := by
  intro s hfail _
  rw [exec_ret, subReturn_of_failing_low hfail.mem_failing, Micro.outcome_fault, id]

theorem exec_ret_stopsAt_high : StopsAt .ret (fun s => .memRead (s.sp + 1#16)) id (fun _ => True) := by
  intro s hfail _
  rw [exec_ret, subReturn_of_failsOnly_high hfail, Micro.outcome_fault, id]

theorem exec_retCc_stopsAt_flag (cc : Cond) :
    StopsAt (.retCc cc) (fun _ => .getFlag cc.flag) id (fun _ => True) := by
  intro s hfail _
  rw [exec_retCc, whenCond_of_failing hfail.mem_failing, Micro.outcome_fault, id]

/-- Settles O25: `RET cc` is `RET` or, with no operand to fetch, nothing (R90). -/
theorem retCcReturnsOnlyWhenTaken : Obligations.RetCcReturnsOnlyWhenTaken := by
  refine ⟨fun cc s hp hc => ?_, fun cc s h hc => exec_retCc_of_not_holds hc h, fun cc => ?_,
    fun cc => decodeCmd_retCc cc 0, fun cc => ?_⟩
  · rw [exec_retCc_of_holds (hp.not_mem_failing _) hc]
    exact exec_ret_plain hp
  · exact ⟨exec_retCc_stopsAt_flag cc, exec_ret_stopsAt_low.of_holds (fun _ => exec_retCc_of_holds) nofun,
      exec_ret_stopsAt_high.of_holds (fun _ => exec_retCc_of_holds) nofun⟩
  · rw [← withField_eq_or_shiftLeft]
    exact decode_encode (i := .retCc cc) rfl

end Machine

end Sys2Proof

/-!
The linkage unit of 43_linkage.md: calls push the address that returns pop. Said once are the word that a push leaves
at `SP` and what every taken call and every taken return does; the round trip and the pairing of pushes and pops
follow.
-/

namespace Sys2Proof.Machine

/-! ## The word at an address (20_memory.md R34, R35) -/

/-- A word depends on its two bytes alone. -/
theorem State.wordAt_congr {s t : State} {a : Word} (hlow : t.byteAt a = s.byteAt a)
    (hhigh : t.byteAt (a + 1#16) = s.byteAt (a + 1#16)) : t.wordAt a = s.wordAt a := by
  rw [State.wordAt, State.wordAt, hlow, hhigh]

/-- A word is known by its two bytes. -/
theorem State.wordAt_eq_of_bytes {s : State} {a w : Word} (hlow : s.byteAt a = w.extractLsb' 0 8)
    (hhigh : s.byteAt (a + 1#16) = w.extractLsb' 8 8) : s.wordAt a = w := by
  rw [State.wordAt, hlow, hhigh]
  exact BitVec.extractLsb'_append_extractLsb'

/-- A word stored with its high byte first is read back. -/
theorem State.wordAt_storeByte_storeByte {s : State} (hinv : s.Inv) (a w : Word) :
    ((s.storeByte (a + 1#16) (w.extractLsb' 8 8)).storeByte a (w.extractLsb' 0 8)).wordAt a = w := by
  have hne : a + 1#16 ≠ a := by bv_omega
  apply State.wordAt_eq_of_bytes
  · exact State.storeByte_byteAt_same (State.storeByte_wf hinv ..) ..
  · rw [State.storeByte_byteAt_other _ _ hne, State.storeByte_byteAt_same hinv]

/-! ## `CALL nn` (R100) -/

/-- Settles O21: `CALL nn` is the operand fetch, then the push of the `PC` that the fetch leaves (R97, R100). -/
theorem callPushesAddressAfterOperand : Obligations.CallPushesAddressAfterOperand :=
  ⟨fun _ => exec_call_plain_calledFrom, stopsAt_low_of_fetchWord exec_call, stopsAt_high_of_fetchWord exec_call,
    exec_call_stopsAt_push_high, exec_call_stopsAt_push_low, fun _ => rfl, fun _ _ => rfl⟩

/-! ## `RST v` (R101) -/

theorem zext16_eq_append (v : Byte) : zext16 v = 0x00#8 ++ v := BitVec.setWidth_eq_append (by decide)

theorem exec_rst (v : Byte) (s : State) : exec (.rst v) s = (subCall (zext16 v) s).outcome := rfl

theorem exec_rst_plain_calledFrom {s : State} (hp : s.Plain) (hinv : s.Inv) (v : Byte) :
    ∃ t, exec (.rst v) s = .next t ∧ CalledFrom s s.pc (0x00#8 ++ v) t := by
  obtain ⟨t, hcall, hleft⟩ := subCall_plain_calledFrom hp hinv (zext16 v)
  refine ⟨t, ?_, zext16_eq_append v ▸ hleft⟩
  rw [exec_rst, hcall, Micro.outcome_ok]

theorem exec_rst_stopsAt_push_high (v : Byte) :
    StopsAt (.rst v) (fun s => .memWrite (s.sp - 1#16)) id (fun _ => True) := by
  intro s hfail _
  rw [exec_rst, subCall_of_failing_high hfail.mem_failing, Micro.outcome_fault, id]

theorem exec_rst_stopsAt_push_low (v : Byte) :
    StopsAt (.rst v) (fun s => .memWrite (s.sp - 2#16))
      (fun s => s.storeByte (s.sp - 1#16) (s.pc.extractLsb' 8 8)) (fun _ => True) := by
  intro s hfail _
  rw [exec_rst, subCall_of_failsOnly_low hfail, Micro.outcome_fault]

theorem decodeCmd_rst (cc : BitVec 3) (v : Byte) (x : IndexReg) : decodeCmd (mkCmd 7 cc v) x = some (.rst v) := by
  simp [decodeCmd]

/-- Settles O23: `RST v` is the linkage unit's call with the vector for its address (R97, R101). -/
theorem rstCallsItsVector : Obligations.RstCallsItsVector :=
  ⟨fun v _ hp hinv => exec_rst_plain_calledFrom hp hinv v,
    fun v => ⟨exec_rst_stopsAt_push_high v, exec_rst_stopsAt_push_low v⟩, rfl, decodeCmd_rst 0, by decide⟩

/-! ## `RET`, `RETI`, `RETN` (R102, R103, R104) -/

/-- Settles O24: `RET` is the linkage unit's return (R98, R102). -/
theorem retPopsProgramCounter : Obligations.RetPopsProgramCounter :=
  ⟨fun _ => exec_ret_plain, exec_ret_stopsAt_low, exec_ret_stopsAt_high, fun _ => rfl, rfl⟩

theorem exec_reti_eq_exec_ret (s : State) : exec .reti s = exec .ret s := rfl

theorem exec_reti_plain {s : State} (hp : s.Plain) :
    exec .reti s = .next ((s.setSp (s.sp + 2#16)).setPc (s.wordAt s.sp)) := by
  rw [exec_reti_eq_exec_ret, exec_ret_plain hp]

/-- Settles O26: the signal of `RETI` changes no state, so it is the linkage unit's return as `RET` is (R103). -/
theorem retiIsRetInState : Obligations.RetiIsRetInState :=
  ⟨fun _ => exec_reti_plain, exec_reti_eq_exec_ret, fun _ => rfl, rfl⟩

theorem exec_retn (s : State) : exec .retn s = ((subReturn s).bind fun _ => endNmi).outcome := rfl

theorem exec_retn_plain {s : State} (hp : s.Plain) :
    exec .retn s = .next (((s.setSp (s.sp + 2#16)).setPc (s.wordAt s.sp)).setInNmi false) := by
  have hp' : ((s.setSp (s.sp + 2#16)).setPc (s.wordAt s.sp)).Plain := hp
  rw [exec_retn, subReturn_plain hp, Micro.bind_ok, endNmi_plain hp', Micro.outcome_ok]

theorem exec_retn_stopsAt_low : StopsAt .retn (fun s => .memRead s.sp) id (fun _ => True) := by
  intro s hfail _
  rw [exec_retn, subReturn_of_failing_low hfail.mem_failing, Micro.bind_fault, Micro.outcome_fault, id]

theorem exec_retn_stopsAt_high : StopsAt .retn (fun s => .memRead (s.sp + 1#16)) id (fun _ => True) := by
  intro s hfail _
  rw [exec_retn, subReturn_of_failsOnly_high hfail, Micro.bind_fault, Micro.outcome_fault, id]

/-- Where one call alone fails, a return whose two reads are not that call completes. -/
theorem subReturn_of_failsOnly {call : EnvCall} {s : State} (h : s.FailsOnly call)
    (hlow : .memRead s.sp ≠ call) (hhigh : .memRead (s.sp + 1#16) ≠ call) :
    subReturn s = .ok () ((s.setSp (s.sp + 2#16)).setPc (s.wordAt s.sp)) := by
  rw [subReturn, pop16, readMem16, readMem_of_failsOnly h hlow, Micro.bind_ok, readMem_of_failsOnly h hhigh,
    Micro.bind_ok, Micro.bind_ok, Micro.bind_ok, loadPc_eq, State.wordAt]

theorem endNmi_of_failing {s : State} (h : .endNmi ∈ s.env.failing) :
    endNmi s = .fault (.envFail .endNmi s) := askEnv_of_failing h _

/-- The flag is cleared after the pop, so the pop stays when that fails (R104). -/
theorem exec_retn_stopsAt_endNmi :
    StopsAt .retn (fun _ => .endNmi) (fun s => (s.setSp (s.sp + 2#16)).setPc (s.wordAt s.sp))
      (fun _ => True) := by
  intro s hfail _
  have hstop : .endNmi ∈ ((s.setSp (s.sp + 2#16)).setPc (s.wordAt s.sp)).env.failing := hfail.mem_failing
  rw [exec_retn, subReturn_of_failsOnly hfail nofun nofun, Micro.bind_ok, endNmi_of_failing hstop,
    Micro.outcome_fault]

/-- Settles O27: `RETN` is the linkage unit's return, then the flag (R98, R99, R104). -/
theorem retnPopsThenClearsInNmi : Obligations.RetnPopsThenClearsInNmi :=
  ⟨fun _ => exec_retn_plain, exec_retn_stopsAt_low, exec_retn_stopsAt_high, exec_retn_stopsAt_endNmi,
    fun _ => rfl, rfl⟩

/-! ## The call/return round trip (R105) -/

/-- The word that a call leaves at the new `SP` is the return address. -/
theorem CalledFrom.wordAt_sp {s t : State} {ra target : Word} (h : CalledFrom s ra target t) :
    t.wordAt (s.sp - 2#16) = ra := by
  obtain ⟨-, -, hhigh, hlow, -⟩ := h
  rw [← sp_sub_two_add_one] at hhigh
  exact State.wordAt_eq_of_bytes hlow hhigh

/-- Every taken call pushes its return address, and goes to its operand if it is no `RST`. -/
theorem takenCall_plain {i : Instr} {s : State} (hp : s.Plain) (hinv : s.Inv)
    (hi : i = .call ∨ (∃ cc, i = .callCc cc ∧ condHolds cc s.flags = true) ∨ ∃ v, i = .rst v) :
    ∃ t target, exec i s = .next t ∧ CalledFrom s (if i.kind = 7 then s.pc else s.pc + 2#16) target t ∧
      (i.kind ≠ 7 → target = s.wordAt s.pc) := by
  obtain ⟨t, hcall, hleft⟩ := exec_call_plain_calledFrom hp hinv
  rcases hi with rfl | ⟨cc, rfl, hc⟩ | ⟨v, rfl⟩
  · exact ⟨t, _, hcall, hleft, fun _ => rfl⟩
  · rw [← exec_callCc_of_holds (hp.not_mem_failing _) hc] at hcall
    exact ⟨t, _, hcall, hleft, fun _ => rfl⟩
  · obtain ⟨u, hrst, hvector⟩ := exec_rst_plain_calledFrom hp hinv v
    exact ⟨u, _, hrst, hvector, fun hkind => absurd rfl hkind⟩

/-- Every taken return loads `PC` with the word at `SP` and raises `SP` by 2. -/
theorem takenReturn_plain {j : Instr} {s : State} (hp : s.Plain)
    (hj : j = .ret ∨ j = .reti ∨ j = .retn ∨ ∃ cc, j = .retCc cc ∧ condHolds cc s.flags = true) :
    ∃ t, exec j s = .next t ∧ t.sp = s.sp + 2#16 ∧ t.pc = s.wordAt s.sp := by
  rcases hj with rfl | rfl | rfl | ⟨cc, rfl, hc⟩
  · exact ⟨_, exec_ret_plain hp, rfl, rfl⟩
  · exact ⟨_, exec_reti_plain hp, rfl, rfl⟩
  · exact ⟨_, exec_retn_plain hp, rfl, rfl⟩
  · rw [exec_retCc_of_holds (hp.not_mem_failing _) hc]
    exact ⟨_, exec_ret_plain hp, rfl, rfl⟩

/-- Settles O43: the return pops the word that the call has pushed, from the `SP` that the call has left (R105). -/
theorem callReturnRoundTrip : Obligations.CallReturnRoundTrip := by
  intro i j s t u hp hinv hpu hi hj hcall husp hlow hhigh
  obtain ⟨t', target, hcall', hleft, htarget⟩ := takenCall_plain hp hinv hi
  cases hcall'.symm.trans hcall
  obtain ⟨w, hret, hwsp, hwpc⟩ := takenReturn_plain hpu hj
  have hword : u.wordAt u.sp = t.wordAt (s.sp - 2#16) := by
    rw [← sp_sub_two_add_one] at hhigh
    rw [husp]
    exact State.wordAt_congr hlow hhigh
  have ⟨htpc, htsp, _⟩ := hleft
  refine ⟨htsp, fun hkind => htpc.trans (htarget hkind), w, hret, ?_, ?_⟩
  · rw [hwsp, husp, BitVec.sub_add_cancel]
  · rw [hwpc, hword, hleft.wordAt_sp]

/-! ## Pushes and pops (R106) -/

/-- In the default environment a push leaves its word at the new `SP`. -/
theorem push16_plain_wordAt_sp {v : Word} {s t : State} (hp : s.Plain) (hinv : s.Inv)
    (h : push16 v s = .ok () t) : t.wordAt t.sp = v := by
  rw [push16_plain hp] at h
  cases h
  rw [State.setSp_sp, State.setSp_wordAt, ← sp_sub_two_add_one]
  exact State.wordAt_storeByte_storeByte hinv ..

theorem push16_sp {v : Word} {s t : State} (h : push16 v s = .ok () t) : t.sp = s.sp - 2#16 := by
  obtain ⟨heq, -, -⟩ := push16_frame h
  rw [heq, State.setSp_sp]

theorem push16_env {v : Word} {s t : State} (h : push16 v s = .ok () t) : t.env = s.env := by
  obtain ⟨heq, -, -⟩ := push16_frame h
  rw [heq, State.setSp_env, State.setMem_env]

/-- A push leaves the word that was at the old `SP`. -/
theorem push16_wordAt_old_sp {v : Word} {s t : State} (h : push16 v s = .ok () t) :
    t.wordAt s.sp = s.wordAt s.sp := by
  obtain ⟨-, hother, -⟩ := push16_frame h
  exact State.wordAt_congr (hother _ (by bv_omega) (by bv_omega)) (hother _ (by bv_omega) (by bv_omega))

/-- Settles O44: the second push leaves its word at `SP` and the first push's word above it (R95, R96, R106). -/
theorem pushesAndPopsAreLifo : Obligations.PushesAndPopsAreLifo := by
  intro a b s s1 s2 u hp hinv hpu hpush1 hpush2 husp hbytes
  have hp1 : s1.Plain := (push16_env hpush1).trans hp
  obtain ⟨-, -, hwf⟩ := push16_frame hpush1
  have hsp2 : s2.sp + 2#16 = s1.sp := by rw [push16_sp hpush2, BitVec.sub_add_cancel]
  have hsp1 : s1.sp + 2#16 = s.sp := by rw [push16_sp hpush1, BitVec.sub_add_cancel]
  have htop : u.wordAt u.sp = b := by
    rw [husp, ← push16_plain_wordAt_sp hp1 (hwf hinv) hpush2]
    exact State.wordAt_congr (by simpa using hbytes 0 (by decide)) (hbytes 1 (by decide))
  have hnext : u.wordAt (u.sp + 2#16) = a := by
    rw [husp, ← push16_plain_wordAt_sp hp hinv hpush1, ← push16_wordAt_old_sp hpush2, ← hsp2]
    refine State.wordAt_congr (hbytes 2 (by decide)) ?_
    rw [BitVec.add_assoc]
    exact hbytes 3 (by decide)
  have hpv : (u.setSp (u.sp + 2#16)).Plain := hpu
  refine ⟨_, htop ▸ pop16_plain hpu, _, hnext ▸ pop16_plain hpv, ?_⟩
  rw [State.setSp_sp, State.setSp_sp, husp, hsp2, hsp1]

end Sys2Proof.Machine

/-!
The decrement and branch of 44_djnz.md. `DJNZ` said once, run and stopped; then its loop, counted by the passes that
the register promises: each jump uses up one of them, and the pass that falls through is the last.
-/

namespace Sys2Proof.Machine

/-! ## The decrement (R111) -/

theorem decrement8_toNat (n : Byte) : (decrement8 n).toNat = (n.toNat + 255) % 256 := by
  rw [decrement8, BitVec.toNat_sub, Nat.add_comm]
  rfl

/-! ## `DJNZ d` (R110) -/

theorem exec_djnz (s : State) :
    exec .djnz s = ((fetchByte s).bind fun ofs s => (readCount s).bind fun c s =>
      (writeCount (decrement8 c) s).bind fun _ s =>
      if decrement8 c = 0#8 then .ok () s else relJump ofs s).outcome := rfl

theorem exec_djnz_plain {s : State} (hp : s.Plain) :
    exec .djnz s = .next ((s.setB (decrement8 s.b)).setPc
      (if decrement8 s.b = 0#8 then s.pc + 1#16 else s.pc + 1#16 + sext16 (s.byteAt s.pc))) := by
  have hp' : (s.setPc (s.pc + 1#16)).Plain := hp
  rw [exec_djnz, fetchByte_plain hp, Micro.bind_ok, countAndJump_plain hp', Micro.outcome_ok]
  rfl

theorem exec_djnz_eq_next_plain {s t : State} (hp : s.Plain) (h : exec .djnz s = .next t) :
    t.b = decrement8 s.b ∧ t.pc = if t.b = 0 then s.pc + 1#16 else s.pc + 1#16 + sext16 (s.byteAt s.pc) := by
  cases (exec_djnz_plain hp).symm.trans h
  exact ⟨rfl, rfl⟩

theorem readCount_of_failing {s : State} (h : .get8 ∈ s.env.failing) :
    readCount s = .fault (.envFail .get8 s) := askEnv_of_failing h _

theorem readCount_of_not_failing {s : State} (h : .get8 ∉ s.env.failing) : readCount s = .ok s.b s :=
  askEnv_of_not_failing h _

theorem writeCount_of_failing {s : State} (h : .set8 ∈ s.env.failing) (n : Byte) :
    writeCount n s = .fault (.envFail .set8 s) := askEnv_of_failing h _

theorem exec_djnz_stopsAt_operand : StopsAt .djnz (fun s => .memRead s.pc) id (fun _ => True) := by
  intro s hfail _
  rw [exec_djnz, fetchByte_of_failing hfail.mem_failing, Micro.bind_fault, Micro.outcome_fault, id]

theorem exec_djnz_stopsAt_get8 :
    StopsAt .djnz (fun _ => .get8) (fun s => s.setPc (s.pc + 1#16)) (fun _ => True) := by
  intro s hfail _
  have hstop : .get8 ∈ (s.setPc (s.pc + 1#16)).env.failing := hfail.mem_failing
  rw [exec_djnz, fetchByte_of_failsOnly hfail nofun, Micro.bind_ok, readCount_of_failing hstop, Micro.bind_fault,
    Micro.outcome_fault]

theorem exec_djnz_stopsAt_set8 :
    StopsAt .djnz (fun _ => .set8) (fun s => s.setPc (s.pc + 1#16)) (fun _ => True) := by
  intro s hfail _
  have hread : .get8 ∉ (s.setPc (s.pc + 1#16)).env.failing := hfail.not_mem_failing nofun
  have hstop : .set8 ∈ (s.setPc (s.pc + 1#16)).env.failing := hfail.mem_failing
  rw [exec_djnz, fetchByte_of_failsOnly hfail nofun, Micro.bind_ok, readCount_of_not_failing hread, Micro.bind_ok,
    writeCount_of_failing hstop, Micro.bind_fault, Micro.outcome_fault]

/-- Settles O28: `DJNZ d` run, stopped at each of its sub-steps, and decoded (R110, R111). -/
theorem djnzDecrementsThenTests : Obligations.DjnzDecrementsThenTests :=
  ⟨fun s hp => ⟨_, exec_djnz_plain hp, decrement8_toNat s.b, rfl⟩, exec_djnz_stopsAt_operand,
    exec_djnz_stopsAt_get8, exec_djnz_stopsAt_set8, fun _ => rfl, rfl⟩

/-! ## The loop (R112) -/

/-- How often a loop is passed that `DJNZ` closes and that is entered with the register at `b`: 0 counts as 256. -/
def djnzPasses (b : Byte) : Nat := if b = 0 then 256 else b.toNat

theorem djnzPasses_pos (b : Byte) : 0 < djnzPasses b := by
  unfold djnzPasses
  split
  · decide
  · next hb => exact Nat.pos_of_ne_zero fun h => hb (BitVec.eq_of_toNat_eq h)

/-- The execution that falls through is the last pass. -/
theorem decrement8_eq_zero_iff (b : Byte) : decrement8 b = 0 ↔ djnzPasses b = 1 := by
  unfold decrement8 djnzPasses
  split <;> bv_omega

/-- An execution that jumps uses up one pass. -/
theorem djnzPasses_decrement8 {b : Byte} (h : decrement8 b ≠ 0) :
    djnzPasses (decrement8 b) + 1 = djnzPasses b := by
  rw [djnzPasses, if_neg h, decrement8_toNat, djnzPasses]
  split
  · next hb => rw [hb]; rfl
  · bv_omega

/-- As long as passes are left, those run and those left make up the passes at entry. -/
theorem djnzPasses_add_run {b : Nat → Byte} (hb : ∀ k, b (k + 1) = decrement8 (b k)) {k : Nat}
    (hk : k < djnzPasses (b 0)) : djnzPasses (b k) + k = djnzPasses (b 0) := by
  induction k with
  | zero => rfl
  | succ k ih =>
    have hleft := ih (by omega)
    have hjump : decrement8 (b k) ≠ 0 := by
      rw [ne_eq, decrement8_eq_zero_iff]
      omega
    have huse := djnzPasses_decrement8 hjump
    rw [hb]
    omega

/-- The register reaches 0 in the last of the passes and in none before it. -/
theorem decrement8_run_eq_zero_iff {b : Nat → Byte} (hb : ∀ k, b (k + 1) = decrement8 (b k)) {k : Nat}
    (hk : k < djnzPasses (b 0)) : decrement8 (b k) = 0 ↔ k + 1 = djnzPasses (b 0) := by
  have hleft := djnzPasses_add_run hb hk
  rw [decrement8_eq_zero_iff]
  omega

/-- Settles O45: the passes left count down by one with every jump, and the last pass falls through (R112). -/
theorem djnzLoopCount : Obligations.DjnzLoopCount := by
  intro before after hp hexec hkeep n
  have hstep := fun k => exec_djnz_eq_next_plain (hp k) (hexec k)
  have hb : ∀ k, (after k).b = decrement8 (before k).b := fun k => (hstep k).1
  have hpc : ∀ k, (after k).pc = if (after k).b = 0 then (before k).pc + 1#16
      else (before k).pc + 1#16 + sext16 ((before k).byteAt (before k).pc) := fun k => (hstep k).2
  have hzero : ∀ {k}, k < n → ((after k).b = 0 ↔ k + 1 = n) := fun {k} hk => by
    rw [hb]
    exact decrement8_run_eq_zero_iff (b := fun k => (before k).b) (fun k => (hkeep k).trans (hb k)) hk
  have hn : 0 < n := djnzPasses_pos (before 0).b
  refine ⟨fun k hk => ?_, ?_⟩
  · have hjump : (after k).b ≠ 0 := fun h => hk.ne ((hzero (Nat.lt_of_succ_lt hk)).1 h)
    exact ⟨hjump, (hpc k).trans (if_neg hjump)⟩
  · have hfall : (after (n - 1)).b = 0 := (hzero (Nat.sub_one_lt_of_lt hn)).2 (Nat.sub_add_cancel hn)
    exact ⟨hfall, (hpc _).trans (if_pos hfall)⟩

end Sys2Proof.Machine

/-!
The exceptions of 60_exceptions.md: that every operation completes where no environment operation fails, what is left
where one alone fails, and what sets `IN_NMI`.
-/

namespace Sys2Proof.Machine

/-! ## Every operation completes in the default environment (R120) -/

/-- Neither the address called nor the value of `SP` can stop a call. -/
theorem exec_call_completes {s : State} (hp : s.Plain) : ∃ t, exec .call s = .next t := by
  have hp' : (s.setPc (s.pc + 2#16)).Plain := hp
  rw [exec_call, fetchWord_plain hp, Micro.bind_ok, subCall_eq_plain hp', Micro.outcome_ok]
  exact ⟨_, rfl⟩

theorem exec_rst_completes {s : State} (hp : s.Plain) (v : Byte) : ∃ t, exec (.rst v) s = .next t := by
  rw [exec_rst, subCall_eq_plain hp, Micro.outcome_ok]
  exact ⟨_, rfl⟩

theorem exec_callCc_completes {s : State} (hp : s.Plain) (cc : Cond) : ∃ t, exec (.callCc cc) s = .next t := by
  cases hc : condHolds cc s.flags with
  | true =>
    rw [exec_callCc_of_holds (hp.not_mem_failing _) hc]
    exact exec_call_completes hp
  | false => exact ⟨_, exec_callCc_plain_of_not_holds hc hp⟩

theorem exec_retCc_completes {s : State} (hp : s.Plain) (cc : Cond) : ∃ t, exec (.retCc cc) s = .next t := by
  cases hc : condHolds cc s.flags with
  | true =>
    rw [exec_retCc_of_holds (hp.not_mem_failing _) hc]
    exact ⟨_, exec_ret_plain hp⟩
  | false => exact ⟨_, exec_retCc_of_not_holds hc (hp.not_mem_failing _)⟩

/-- Settles O36: each operation answers in the default environment, whatever its operand, condition or stack (R120). -/
theorem everyOperationIsTotal : Obligations.EveryOperationIsTotal := by
  intro i s hp
  have hindex := exec_indexJump_of_not_failing (hp.not_mem_failing .indexValue)
  cases i with
  | djnz => exact ⟨_, exec_djnz_plain hp⟩
  | jr => exact ⟨_, exec_jr_plain hp⟩
  | jrCc cc => exact ⟨_, exec_jrCc_plain hp cc⟩
  | retCc cc => exact exec_retCc_completes hp cc
  | jpCc cc => exact ⟨_, exec_jpCc_plain hp cc⟩
  | jp => exact ⟨_, exec_jp_plain hp⟩
  | callCc cc => exact exec_callCc_completes hp cc
  | rst v => exact exec_rst_completes hp v
  | ret => exact ⟨_, exec_ret_plain hp⟩
  | call => exact exec_call_completes hp
  | jpHl => exact ⟨_, hindex .hl⟩
  | jpIx => exact ⟨_, hindex .ix⟩
  | jpIy => exact ⟨_, hindex .iy⟩
  | retn => exact ⟨_, exec_retn_plain hp⟩
  | reti => exact ⟨_, exec_reti_plain hp⟩

/-! ## No roll-back (R122) -/

/-- An operation with a displacement begins with its fetch (30_encoding.md R55). -/
theorem exists_exec_eq_fetchByte_bind {i : Instr} (h : i.format = .d) :
    ∃ rest, ∀ s, exec i s = ((fetchByte s).bind rest).outcome := by
  cases i with
  | djnz => exact ⟨_, exec_djnz⟩
  | jr => exact ⟨_, exec_jr⟩
  | jrCc cc => exact ⟨_, exec_jrCc cc⟩
  | _ => cases h

/-- An operation with an address begins with its fetch (30_encoding.md R55). -/
theorem exists_exec_eq_fetchWord_bind {i : Instr} (h : i.format = .nn) :
    ∃ rest, ∀ s, exec i s = ((fetchWord s).bind rest).outcome := by
  cases i with
  | jp => exact ⟨_, exec_jp⟩
  | jpCc cc => exact ⟨_, exec_jpCc cc⟩
  | call => exact ⟨_, exec_call⟩
  | callCc cc => exact ⟨_, exec_callCc cc⟩
  | _ => cases h

/-- Nothing comes before the first operand byte, whichever the operand is. -/
theorem stopsAt_first_operand_byte {i : Instr} (h : i.format ≠ .n) :
    StopsAt i (fun s => .memRead s.pc) id (fun _ => True) := by
  cases hformat : i.format with
  | n => exact absurd hformat h
  | d =>
    obtain ⟨rest, hi⟩ := exists_exec_eq_fetchByte_bind hformat
    intro s hfail _
    rw [hi, fetchByte_of_failing hfail.mem_failing, Micro.bind_fault, Micro.outcome_fault, id]
  | nn =>
    obtain ⟨rest, hi⟩ := exists_exec_eq_fetchWord_bind hformat
    exact stopsAt_low_of_fetchWord hi

theorem stopsAt_second_operand_byte {i : Instr} (h : i.format = .nn) :
    StopsAt i (fun s => .memRead (s.pc + 1#16)) id (fun _ => True) := by
  obtain ⟨rest, hi⟩ := exists_exec_eq_fetchWord_bind h
  exact stopsAt_high_of_fetchWord hi

section Taken

variable {i : Instr} {s : State} (hflag : ∀ f, .getFlag f ∉ s.env.failing)
include hflag

/-- Where the flags can be read, a taken call with an operand is `CALL nn`. -/
theorem exec_takenCall_eq_exec_call (hi : i = .call ∨ ∃ cc, i = .callCc cc ∧ condHolds cc s.flags = true) :
    exec i s = exec .call s := by
  rcases hi with rfl | ⟨cc, rfl, hc⟩
  · rfl
  · exact exec_callCc_of_holds (hflag cc.flag) hc

/-- Where the flags can be read, a taken return stops where its pop does. -/
theorem exec_takenReturn_of_fault
    (hi : i = .ret ∨ i = .reti ∨ i = .retn ∨ ∃ cc, i = .retCc cc ∧ condHolds cc s.flags = true) {r : Fault}
    (hpop : subReturn s = .fault r) : exec i s = .fault r := by
  have hret : exec .ret s = .fault r := by rw [exec_ret, hpop, Micro.outcome_fault]
  rcases hi with rfl | rfl | rfl | ⟨cc, rfl, hc⟩
  · exact hret
  · rw [exec_reti_eq_exec_ret, hret]
  · rw [exec_retn, hpop, Micro.bind_fault, Micro.outcome_fault]
  · rw [exec_retCc_of_holds (hflag cc.flag) hc, hret]

end Taken

/-- Settles O38: the operations stop at each failing sub-step with what the sub-steps before it left (R122). -/
theorem failureKeepsCompletedSubsteps : Obligations.FailureKeepsCompletedSubsteps := by
  intro s c (hfail : s.FailsOnly c)
  refine ⟨?firstByte, ?secondByte, ?flag, ?callPush, ?rstPush, ?pop, ?endNmi, ?count, ?index⟩
  case firstByte =>
    rintro i hi rfl
    exact stopsAt_first_operand_byte hi s hfail trivial
  case secondByte =>
    rintro i hi rfl
    exact stopsAt_second_operand_byte hi s hfail trivial
  case flag =>
    rintro cc rfl
    exact ⟨exec_jrCc_stopsAt_flag cc s hfail trivial,
      stopsAt_flag_of_fetchWord (exec_jpCc cc) s hfail trivial,
      stopsAt_flag_of_fetchWord (exec_callCc cc) s hfail trivial,
      exec_retCc_stopsAt_flag cc s hfail trivial⟩
  case callPush =>
    refine fun i hi => ⟨?_, ?_⟩
    · rintro rfl
      rw [exec_takenCall_eq_exec_call (fun _ => hfail.not_mem_failing nofun) hi]
      exact exec_call_stopsAt_push_high s hfail trivial
    · rintro rfl
      rw [exec_takenCall_eq_exec_call (fun _ => hfail.not_mem_failing nofun) hi]
      exact exec_call_stopsAt_push_low s hfail trivial
  case rstPush =>
    refine fun v => ⟨?_, ?_⟩
    · rintro rfl
      exact exec_rst_stopsAt_push_high v s hfail trivial
    · rintro rfl
      exact exec_rst_stopsAt_push_low v s hfail trivial
  case pop =>
    rintro i hi (rfl | rfl)
    · exact exec_takenReturn_of_fault (fun _ => hfail.not_mem_failing nofun) hi
        (subReturn_of_failing_low hfail.mem_failing)
    · exact exec_takenReturn_of_fault (fun _ => hfail.not_mem_failing nofun) hi (subReturn_of_failsOnly_high hfail)
  case endNmi =>
    rintro rfl
    exact exec_retn_stopsAt_endNmi s hfail trivial
  case count =>
    rintro (rfl | rfl)
    · exact exec_djnz_stopsAt_get8 s hfail trivial
    · exact exec_djnz_stopsAt_set8 s hfail trivial
  case index =>
    rintro rfl
    have hstop := exec_indexJump_of_failing hfail.mem_failing
    exact ⟨hstop .hl, hstop .ix, hstop .iy⟩

/-! ## What sets `IN_NMI` (R127) -/

theorem subCall_inNmi {addr : Word} {s t : State} (h : subCall addr s = .ok () t) : t.inNmi = s.inNmi := by
  obtain ⟨heq, -, -⟩ := subCall_frame h
  rw [heq, State.setPc_inNmi, State.setSp_inNmi, State.setMem_inNmi]

/-- An operation leaves `IN_NMI` or clears it, so a flag set after it was set before. -/
theorem inNmi_of_exec {i : Instr} {s t : State} (h : exec i s = .next t) (hset : t.inNmi = true) :
    s.inNmi = true := by
  by_cases hi : i = .retn
  · subst hi
    exact absurd ((exec_retn_inNmi h).symm.trans hset) Bool.false_ne_true
  · exact (exec_inNmi hi h).symm.trans hset

/-- The opcode fetch moves `PC` alone, so the same holds of a step. -/
theorem inNmi_of_step {s t : State} (h : step s = .next t) (hset : t.inNmi = true) : s.inNmi = true := by
  obtain ⟨i, u, hfetch, hexec⟩ := step_eq_next h
  obtain ⟨bytes, -, -, rfl⟩ := fetchOpcode_eq_ok hfetch
  have hbefore := inNmi_of_exec hexec hset
  rwa [State.setPc_inNmi] at hbefore

/-- Settles O48: every event but the acceptance of a non-maskable interrupt keeps `IN_NMI` or clears it (R127). -/
theorem onlyNmiEntrySetsInNmi : Obligations.OnlyNmiEntrySetsInNmi := by
  intro e s t h hset
  cases e with
  | none => exact .inl (inNmi_of_step h hset)
  | some event =>
    have hevent := Micro.outcome_eq_next h
    cases event with
    | interrupt handler => exact .inl ((subCall_inNmi hevent).symm.trans hset)
    | nmi handler => exact .inr ⟨handler, rfl⟩
    | reset p =>
      cases hevent
      exact absurd hset Bool.false_ne_true
    | otherInstruction after =>
      cases hevent
      exact .inl hset

end Sys2Proof.Machine

/-!
What a completed operation can have done, in any environment: the table of 10_state.md R10, said first for each
operation and then once for all of them. The frames are read off it, and the canonical form of memory (20_memory.md
R30) is an invariant because a call alone stores, through writes that keep it.
-/

namespace Sys2Proof.Machine

/-! ## The relative transfers and the jumps -/

theorem exec_jr_eq_next {s t : State} (h : exec .jr s = .next t) :
    t = s.setPc (s.pc + 1#16 + sext16 (s.byteAt s.pc)) := by
  obtain ⟨d, u, hfetch, hjump⟩ := Micro.bind_eq_ok (Micro.outcome_eq_next h)
  obtain ⟨rfl, rfl⟩ := fetchByte_eq_ok hfetch
  cases hjump
  rfl

theorem exec_jrCc_eq_next {cc : Cond} {s t : State} (h : exec (.jrCc cc) s = .next t) :
    t = s.setPc (if condHolds cc s.flags then s.pc + 1#16 + sext16 (s.byteAt s.pc) else s.pc + 1#16) := by
  obtain ⟨d, u, hfetch, hcond⟩ := Micro.bind_eq_ok (Micro.outcome_eq_next h)
  obtain ⟨rfl, rfl⟩ := fetchByte_eq_ok hfetch
  rcases whenCond_eq_ok hcond with ⟨(hc : condHolds cc s.flags = true), htaken⟩ |
    ⟨(hc : condHolds cc s.flags = false), rfl⟩
  · cases htaken
    rw [if_pos hc]
    rfl
  · rw [hc, if_neg Bool.false_ne_true]

theorem exec_djnz_eq_next {s t : State} (h : exec .djnz s = .next t) :
    t = (s.setB (decrement8 s.b)).setPc
      (if decrement8 s.b = 0#8 then s.pc + 1#16 else s.pc + 1#16 + sext16 (s.byteAt s.pc)) := by
  obtain ⟨d, u, hfetch, h⟩ := Micro.bind_eq_ok (Micro.outcome_eq_next h)
  obtain ⟨rfl, rfl⟩ := fetchByte_eq_ok hfetch
  obtain ⟨c, u, hread, h⟩ := Micro.bind_eq_ok h
  cases (askEnv_eq_ok hread).1
  obtain ⟨_, u, hwrite, h⟩ := Micro.bind_eq_ok h
  cases (askEnv_eq_ok hwrite).1
  rw [State.setPc_b] at h
  split at h
  · next hzero =>
    cases h
    rw [if_pos hzero]
    rfl
  · next hzero =>
    cases h
    rw [if_neg hzero]
    rfl

/-- An operation with an address and a condition had its effect after the fetch, or is the fetch alone (R85). -/
theorem fetchWord_bind_whenCond_eq_ok {cc : Cond} {effect : Word → State → Micro Unit} {s t : State}
    (h : ((fetchWord s).bind fun nn => whenCond cc (effect nn)) = .ok () t) :
    (condHolds cc s.flags = true ∧ effect (s.wordAt s.pc) (s.setPc (s.pc + 2#16)) = .ok () t) ∨
      (condHolds cc s.flags = false ∧ t = s.setPc (s.pc + 2#16)) := by
  obtain ⟨nn, u, hfetch, hcond⟩ := Micro.bind_eq_ok h
  obtain ⟨rfl, rfl⟩ := fetchWord_eq_ok hfetch
  exact whenCond_eq_ok hcond

theorem exec_jpCc_eq_next {cc : Cond} {s t : State} (h : exec (.jpCc cc) s = .next t) : ∃ v, t = s.setPc v := by
  rcases fetchWord_bind_whenCond_eq_ok (Micro.outcome_eq_next h) with ⟨-, htaken⟩ | ⟨-, rfl⟩
  · cases htaken
    exact ⟨_, rfl⟩
  · exact ⟨_, rfl⟩

/-- A completed jump, relative ones included, has loaded `PC` and done nothing else. -/
theorem exec_jump_eq_next {i : Instr} {s t : State}
    (hi : i = .jr ∨ i = .jp ∨ i = .jpHl ∨ i = .jpIx ∨ i = .jpIy ∨ (∃ cc, i = .jrCc cc) ∨ ∃ cc, i = .jpCc cc)
    (h : exec i s = .next t) : ∃ v, t = s.setPc v := by
  rcases hi with rfl | rfl | rfl | rfl | rfl | ⟨cc, rfl⟩ | ⟨cc, rfl⟩
  · exact ⟨_, exec_jr_eq_next h⟩
  · exact ⟨_, exec_jp_eq_next h⟩
  · exact ⟨_, exec_indexJump_eq_next (x := .hl) h⟩
  · exact ⟨_, exec_indexJump_eq_next (x := .ix) h⟩
  · exact ⟨_, exec_indexJump_eq_next (x := .iy) h⟩
  · exact ⟨_, exec_jrCc_eq_next h⟩
  · exact exec_jpCc_eq_next h

/-- Settles O29: a jump is a load of `PC` (R75, R80, R81, R87, R88). -/
theorem jumpFrame : Obligations.JumpFrame := by
  intro i s t hi h
  obtain ⟨v, rfl⟩ := exec_jump_eq_next hi h
  exact ⟨rfl, rfl, rfl, exec_sameOutsideCtd h, fun _ _ => rfl⟩

/-- Settles O30: `DJNZ` writes the register and loads `PC` (R110). -/
theorem djnzFrame : Obligations.DjnzFrame := by
  intro s t h
  cases exec_djnz_eq_next h
  exact ⟨rfl, rfl, exec_sameOutsideCtd h, fun _ _ => rfl⟩

/-! ## The calls -/

/-- What a completed call has left, wherever its push has stored: `PC`, `SP` and the two bytes below the old `SP`
have changed at most, and a canonical memory has stayed canonical. -/
def Pushed (s t : State) : Prop :=
  (∃ m v, t = ((s.setMem m).setSp (s.sp - 2#16)).setPc v) ∧
    SameBytesExcept [s.sp - 2#16, s.sp - 1#16] s t ∧ (s.Inv → t.Inv)

theorem subCall_pushed {addr : Word} {s t : State} (h : subCall addr s = .ok () t) : Pushed s t := by
  obtain ⟨heq, hother, hwf⟩ := subCall_frame h
  refine ⟨⟨t.mem, addr, heq⟩, fun a ha => ?_, hwf⟩
  simp only [List.mem_cons, List.not_mem_nil, or_false, not_or] at ha
  exact hother a ha.1 ha.2

/-- The operand fetch before a push moves `PC` alone, which the call loads. -/
theorem Pushed.of_setPc {s t : State} {v : Word} (h : Pushed (s.setPc v) t) : Pushed s t := h

theorem exec_call_eq_next {s t : State} (h : exec .call s = .next t) : Pushed s t := by
  obtain ⟨nn, u, hfetch, hcall⟩ := Micro.bind_eq_ok (Micro.outcome_eq_next h)
  obtain ⟨-, rfl⟩ := fetchWord_eq_ok hfetch
  exact (subCall_pushed hcall).of_setPc

theorem exec_rst_eq_next {v : Byte} {s t : State} (h : exec (.rst v) s = .next t) : Pushed s t :=
  subCall_pushed (Micro.outcome_eq_next h)

theorem exec_callCc_eq_next {cc : Cond} {s t : State} (h : exec (.callCc cc) s = .next t) :
    Pushed s t ∨ (condHolds cc s.flags = false ∧ t = s.setPc (s.pc + 2#16)) := by
  rcases fetchWord_bind_whenCond_eq_ok (Micro.outcome_eq_next h) with ⟨-, htaken⟩ | hnot
  · exact .inl (subCall_pushed htaken).of_setPc
  · exact .inr hnot

/-- A completed call has pushed, or it is a `CALL cc` whose condition does not hold. -/
theorem exec_anyCall_eq_next {i : Instr} {s t : State} (hi : i = .call ∨ (∃ v, i = .rst v) ∨ ∃ cc, i = .callCc cc)
    (h : exec i s = .next t) :
    Pushed s t ∨ (t = s.setPc (s.pc + 2#16) ∧ ∃ cc, i = .callCc cc ∧ condHolds cc s.flags = false) := by
  rcases hi with rfl | ⟨v, rfl⟩ | ⟨cc, rfl⟩
  · exact .inl (exec_call_eq_next h)
  · exact .inl (exec_rst_eq_next h)
  · exact (exec_callCc_eq_next h).imp_right fun ⟨hc, heq⟩ => ⟨heq, cc, rfl, hc⟩

/-- Settles O31: a call has pushed, or has fetched its operand alone (R89, R95, R97). -/
theorem callFrame : Obligations.CallFrame := by
  intro i s t hi h
  have houtside := exec_sameOutsideCtd h
  rcases exec_anyCall_eq_next hi h with ⟨⟨m, v, rfl⟩, hbytes, -⟩ | ⟨rfl, hcond⟩
  · exact ⟨rfl, rfl, houtside, .inl ⟨rfl, hbytes⟩⟩
  · exact ⟨rfl, rfl, houtside, .inr ⟨rfl, fun _ _ => rfl, hcond⟩⟩

/-! ## The returns -/

theorem exec_ret_eq_next {s t : State} (h : exec .ret s = .next t) :
    t = (s.setSp (s.sp + 2#16)).setPc (s.wordAt s.sp) := subReturn_eq_ok (Micro.outcome_eq_next h)

theorem exec_retn_eq_next {s t : State} (h : exec .retn s = .next t) :
    t = ((s.setSp (s.sp + 2#16)).setPc (s.wordAt s.sp)).setInNmi false :=
  nmiReturn_eq_ok (Micro.outcome_eq_next h)

theorem exec_retCc_eq_next {cc : Cond} {s t : State} (h : exec (.retCc cc) s = .next t) :
    t = (s.setSp (s.sp + 2#16)).setPc (s.wordAt s.sp) ∨ (condHolds cc s.flags = false ∧ t = s) := by
  rcases whenCond_eq_ok (Micro.outcome_eq_next h) with ⟨-, htaken⟩ | hnot
  · exact .inl (subReturn_eq_ok htaken)
  · exact .inr hnot

/-- Settles O32: a return is a pop into `PC`, with the flag for `RETN` alone, or nothing (R90, R98, R104). -/
theorem returnFrame : Obligations.ReturnFrame := by
  intro i s t hi h
  have houtside := exec_sameOutsideCtd h
  rcases hi with rfl | rfl | rfl | ⟨cc, rfl⟩
  · cases exec_ret_eq_next h
    exact ⟨rfl, houtside, fun _ _ => rfl, rfl, .inl rfl⟩
  · rw [exec_reti_eq_exec_ret] at h
    cases exec_ret_eq_next h
    exact ⟨rfl, houtside, fun _ _ => rfl, rfl, .inl rfl⟩
  · cases exec_retn_eq_next h
    exact ⟨rfl, houtside, fun _ _ => rfl, rfl, .inl rfl⟩
  · rcases exec_retCc_eq_next h with rfl | ⟨hc, rfl⟩
    · exact ⟨rfl, houtside, fun _ _ => rfl, rfl, .inl rfl⟩
    · exact ⟨rfl, houtside, fun _ _ => rfl, rfl, .inr ⟨rfl, cc, rfl, hc⟩⟩

/-! ## All operations (R10) -/

/-- The ways in which a completed operation has written the state. -/
inductive Leaves (i : Instr) (s : State) : State → Prop where
  | moved (v : Word) : Leaves i s (s.setPc v)
  | counted (hi : i = .djnz) (n : Byte) (v : Word) : Leaves i s ((s.setB n).setPc v)
  | pushed (hi : i.kind ∈ ([5, 6, 7] : List (BitVec 4))) {t : State} (ht : Pushed s t) : Leaves i s t
  | popped (hi : i.kind ∈ ([8, 9, 10] : List (BitVec 4))) (v : Word) :
      Leaves i s ((s.setSp (s.sp + 2#16)).setPc v)
  | endedNmi (hi : i = .retn) (v : Word) : Leaves i s (((s.setSp (s.sp + 2#16)).setPc v).setInNmi false)

theorem leaves_of_jump {i : Instr} {s t : State} (h : ∃ v, t = s.setPc v) : Leaves i s t := by
  obtain ⟨v, rfl⟩ := h
  exact .moved v

theorem exec_leaves {i : Instr} {s t : State} (h : exec i s = .next t) : Leaves i s t := by
  cases i with
  | djnz =>
    cases exec_djnz_eq_next h
    exact .counted rfl ..
  | jr | jp | jpHl | jpIx | jpIy | jrCc | jpCc => exact leaves_of_jump (exec_jump_eq_next (by simp) h)
  | call => exact .pushed (by decide) (exec_call_eq_next h)
  | rst v => exact .pushed (i := .rst v) (by simp [Instr.kind]) (exec_rst_eq_next h)
  | callCc cc =>
    rcases exec_callCc_eq_next h with hpush | ⟨-, rfl⟩
    · exact .pushed (by simp [Instr.kind]) hpush
    · exact .moved _
  | ret | reti =>
    cases exec_ret_eq_next h
    exact .popped (by decide) _
  | retCc cc =>
    rcases exec_retCc_eq_next h with rfl | ⟨-, rfl⟩
    · exact .popped (by simp [Instr.kind]) _
    · exact .moved t.pc
  | retn =>
    cases exec_retn_eq_next h
    exact .endedNmi rfl _

/-- Settles O35: each way of writing the state is open to the operations alone that R10 lists for it. -/
theorem operationsWriteOnlyListedState : Obligations.OperationsWriteOnlyListedState := by
  intro i s t h
  refine ⟨exec_sameOutsideCtd h, ?_⟩
  cases exec_leaves h with
  | moved v => exact ⟨fun _ => rfl, fun _ => rfl, fun _ => rfl, fun _ => rfl⟩
  | counted hi n v => exact ⟨fun hne => absurd hi hne, fun _ => rfl, fun _ => rfl, fun _ => rfl⟩
  | pushed hi ht =>
    obtain ⟨⟨m, v, rfl⟩, -⟩ := ht
    exact ⟨fun _ => rfl, fun _ => rfl, fun hnot => absurd (List.mem_append_left [8, 9, 10, 11] hi) hnot,
      fun hnot => absurd hi hnot⟩
  | popped hi v =>
    have hlisted : i.kind ∈ ([5, 6, 7, 8, 9, 10, 11] : List (BitVec 4)) :=
      List.mem_append_right [5, 6, 7] (List.mem_append_left [11] hi)
    exact ⟨fun _ => rfl, fun _ => rfl, fun hnot => absurd hlisted hnot, fun _ => rfl⟩
  | endedNmi hi v =>
    subst hi
    exact ⟨fun _ => rfl, fun hne => absurd rfl hne, fun hnot => absurd (by decide) hnot, fun _ => rfl⟩

/-! ## Memory stays canonical (20_memory.md R30) -/

theorem exec_inv {i : Instr} {s t : State} (hinv : s.Inv) (h : exec i s = .next t) : t.Inv := by
  cases exec_leaves h with
  | moved | counted | popped | endedNmi => exact hinv
  | pushed _ ht =>
    obtain ⟨-, -, hwf⟩ := ht
    exact hwf hinv

theorem step_inv {s t : State} (hinv : s.Inv) (h : step s = .next t) : t.Inv := by
  obtain ⟨i, u, hfetch, hexec⟩ := step_eq_next h
  obtain ⟨bytes, -, -, rfl⟩ := fetchOpcode_eq_ok hfetch
  have hu : (s.setPc (s.pc + BitVec.ofNat 16 bytes.length)).Inv := hinv
  exact exec_inv hu hexec

theorem step_env {s t : State} (h : step s = .next t) : t.env = s.env := by
  obtain ⟨i, u, hfetch, hexec⟩ := step_eq_next h
  obtain ⟨bytes, -, -, rfl⟩ := fetchOpcode_eq_ok hfetch
  obtain ⟨-, -, -, -, henv⟩ := exec_sameOutsideCtd hexec
  exact henv

/-- Settles O39: the fetch stores nothing, and every operation keeps the canonical form. -/
theorem stepKeepsMemoryCanonical : Obligations.StepKeepsMemoryCanonical :=
  fun _ _ hinv h => ⟨step_inv hinv h, step_env h⟩

theorem resetTo_inv (p : ResetParams) {s : State} (hinv : s.Inv) : (resetTo p s).Inv := hinv

/-- Settles O40: reset leaves memory as it is, and the launch memory lists nothing (R24, R140). -/
theorem resetMemoryIsCanonical : Obligations.ResetMemoryIsCanonical :=
  ⟨rfl, fun p _ => resetTo_inv p⟩

theorem subCall_inv {addr : Word} {s t : State} (hinv : s.Inv) (h : subCall addr s = .ok () t) : t.Inv := by
  obtain ⟨-, -, hwf⟩ := subCall_pushed h
  exact hwf hinv

theorem nmiEntry_inv {handler : Word} {s t : State} (hinv : s.Inv) (h : nmiEntry handler s = .ok () t) :
    t.Inv := by
  obtain ⟨_, u, hcall, hset⟩ := Micro.bind_eq_ok h
  have hu : u.Inv := subCall_inv hinv hcall
  cases hset
  exact hu

/-- A boundary keeps memory canonical if another instruction that runs there does. -/
theorem systemStep_inv {e : Option Outside} {s t : State} (hinv : s.Inv)
    (hother : ∀ after, e = some (.otherInstruction after) → after.Inv) (h : systemStep e s = .next t) : t.Inv := by
  cases e with
  | none => exact step_inv hinv h
  | some event =>
    have hevent := Micro.outcome_eq_next h
    cases event with
    | interrupt handler => exact subCall_inv hinv hevent
    | nmi handler => exact nmiEntry_inv hinv hevent
    | reset p =>
      cases hevent
      exact resetTo_inv p hinv
    | otherInstruction after =>
      cases hevent
      exact hother after rfl

theorem systemRun_cons_eq_next {e : Option Outside} {more : List (Option Outside)} {s t : State}
    (h : systemRun (e :: more) s = .next t) : ∃ u, systemStep e s = .next u ∧ systemRun more u = .next t := by
  rw [systemRun] at h
  split at h
  · next u hstep => exact ⟨u, hstep, h⟩
  · cases h
  · cases h

/-- Settles O41, by induction on the boundaries. -/
theorem systemRunKeepsMemoryCanonical : Obligations.SystemRunKeepsMemoryCanonical := by
  intro events
  induction events with
  | nil =>
    intro s t hinv _ h
    cases h
    exact hinv
  | cons e more ih =>
    intro s t hinv hother h
    obtain ⟨u, hstep, hrun⟩ := systemRun_cons_eq_next h
    have hu : u.Inv := systemStep_inv hinv (fun after he => hother after (he ▸ List.mem_cons_self)) hstep
    exact ih u t hu (fun after hmem => hother after (List.mem_cons_of_mem e hmem)) hrun

end Sys2Proof.Machine

/-!
The decoder of 30_encoding.md R62 and R63 on any bytes: which operations its rows make, what index prefixes can
change, and which bytes it rejects. With them the fetches that find no operation: bytes that are rejected, and index
prefixes without end.
-/

namespace Sys2Proof

/-! ## The operations that have instruction bytes (R62, 90_conflicts.md C6) -/

theorem fieldCc_hasRelativeByte (b : Byte) : (fieldCc b).hasRelativeByte = true := by
  rcases fieldCc_flag b with h | h <;> rw [Cond.hasRelativeByte, h]

/-- The field `ttt` names one of the eight vectors (R54). -/
theorem fieldVector_mem_vectorSet (b : Byte) : fieldVector b ∈ Config.vectorSet := by
  rw [fieldVector]
  generalize b.extractLsb' 3 3 = k
  revert k
  decide

theorem indexJump_wellFormed (x : IndexReg) : (indexJump x).wellFormed = true := by cases x <;> rfl

theorem firstByteRows_wellFormed (x : IndexReg) (b : Byte) :
    ∀ r ∈ firstByteRows x, (r.build b).wellFormed = true := by
  have hvector := List.contains_iff_mem.2 (fieldVector_mem_vectorSet b)
  simp only [firstByteRows, List.forall_mem_cons]
  exact ⟨rfl, rfl, fieldCc_hasRelativeByte b, rfl, rfl, rfl, rfl, hvector, rfl, rfl, indexJump_wellFormed x,
    List.forall_mem_nil _⟩

theorem edRows_wellFormed (b : Byte) : ∀ r ∈ edRows, (r.build b).wellFormed = true := by
  simp only [edRows, List.forall_mem_cons]
  exact ⟨rfl, rfl, rfl, rfl, rfl, rfl, rfl, rfl, List.forall_mem_nil _⟩

theorem lookupRow_wellFormed {rows : List OpcodeRow} {b : Byte} {i : Instr}
    (hrows : ∀ r ∈ rows, (r.build b).wellFormed = true) (h : lookupRow rows b = some i) : i.wellFormed = true := by
  obtain ⟨r, hmem, rfl⟩ := lookupRow_eq_some h
  exact hrows r hmem

/-! ## Decoding by the first byte -/

section FirstByte

variable {x y : IndexReg} {b : Byte}

theorem decodeWith_of_indexPrefix (h : indexPrefix b = some y) (rest : List Byte) :
    decodeWith x (b :: rest) = decodeWith y rest := by rw [decodeWith, h]

theorem decodeWith_ed (rest : List Byte) : decodeWith x (0xED :: rest) = decodeEd rest := rfl

/-- Any byte but the prefixes is looked up in the rows of the first byte. -/
theorem decodeWith_of_row (hpre : indexPrefix b = none) (hed : b ≠ 0xED) (rest : List Byte) :
    decodeWith x (b :: rest) =
      (lookupRow (firstByteRows x) b).elim (.reject (.notControlTransfer b)) fun i => .op i rest := by
  rw [decodeWith, hpre, if_neg hed]
  cases lookupRow (firstByteRows x) b <;> rfl

theorem decodeEd_cons (b : Byte) (rest : List Byte) :
    decodeEd (b :: rest) =
      (lookupRow edRows b).elim (.reject (.notControlTransferEd b)) fun i => .op i rest := by
  rw [decodeEd]
  cases lookupRow edRows b <;> rfl

end FirstByte

/-- An operation found comes after the bytes of its opcode, which alone decode to it. -/
theorem decodeWith_eq_op {x : IndexReg} {bytes rest : List Byte} {i : Instr} (h : decodeWith x bytes = .op i rest) :
    i.wellFormed = true ∧ ∃ opcode, opcode ≠ [] ∧ decodeWith x opcode = .op i [] ∧ bytes = opcode ++ rest := by
  induction bytes generalizing x with
  | nil => cases h
  | cons b bytes ih =>
    cases hpre : indexPrefix b with
    | some y =>
      rw [decodeWith_of_indexPrefix hpre] at h
      obtain ⟨hw, opcode, -, hd, rfl⟩ := ih h
      exact ⟨hw, b :: opcode, List.cons_ne_nil _ _, by rw [decodeWith_of_indexPrefix hpre, hd], rfl⟩
    | none =>
      by_cases hed : b = 0xED
      · subst hed
        rw [decodeWith_ed] at h
        cases bytes with
        | nil => cases h
        | cons c bytes =>
          rw [decodeEd_cons] at h
          cases hrow : lookupRow edRows c with
          | none => rw [hrow] at h; cases h
          | some j =>
            rw [hrow] at h
            cases h
            exact ⟨lookupRow_wellFormed (edRows_wellFormed c) hrow, [0xED, c], List.cons_ne_nil _ _,
              by rw [decodeWith_ed, decodeEd_cons, hrow]; rfl, rfl⟩
      · rw [decodeWith_of_row hpre hed] at h
        cases hrow : lookupRow (firstByteRows x) b with
        | none => rw [hrow] at h; cases h
        | some j =>
          rw [hrow] at h
          cases h
          exact ⟨lookupRow_wellFormed (firstByteRows_wellFormed x b) hrow, [b], List.cons_ne_nil _ _,
            by rw [decodeWith_of_row hpre hed, hrow]; rfl, rfl⟩

/-! ## What the current index register can change (R63) -/

theorem lookupRow_append (rows more : List OpcodeRow) (b : Byte) :
    lookupRow (rows ++ more) b = (lookupRow rows b).or (lookupRow more b) := by
  induction rows with
  | nil => rfl
  | cons r rows ih =>
    rw [List.cons_append, lookupRow, lookupRow, ih]
    split <;> rfl

/-- The current index register stands in the last row alone. -/
theorem firstByteRows_eq (x : IndexReg) :
    firstByteRows x = (firstByteRows .hl).dropLast ++ [⟨0xFF, 0xE9, fun _ => indexJump x⟩] := rfl

/-- A byte that is not the index jump means the same under every index register. -/
theorem lookupRow_firstByteRows (x : IndexReg) {b : Byte} (h : b ≠ 0xE9) :
    lookupRow (firstByteRows x) b = lookupRow (firstByteRows .hl).dropLast b := by
  have hmask : ¬ b &&& 0xFF = 0xE9 := by rwa [show b &&& 0xFF = b from BitVec.and_allOnes]
  rw [firstByteRows_eq, lookupRow_append, lookupRow, if_neg hmask, lookupRow, Option.or_none]

theorem decodeWith_indexJump (x : IndexReg) (rest : List Byte) :
    decodeWith x (0xE9 :: rest) = .op (indexJump x) rest := by cases x <;> rfl

/-- An operation other than the index jump is found under every index register. -/
theorem decodeWith_of_ne_indexJump {x : IndexReg} {bytes rest : List Byte} {i : Instr}
    (h : decodeWith x bytes = .op i rest) (hi : i ≠ indexJump x) (y : IndexReg) :
    decodeWith y bytes = .op i rest := by
  cases bytes with
  | nil => cases h
  | cons b bytes =>
    cases hpre : indexPrefix b with
    | some z => rwa [decodeWith_of_indexPrefix hpre] at h ⊢
    | none =>
      by_cases hed : b = 0xED
      · subst hed
        exact h
      · by_cases hjump : b = 0xE9
        · subst hjump
          rw [decodeWith_indexJump] at h
          cases h
          exact absurd rfl hi
        · rwa [decodeWith_of_row hpre hed, lookupRow_firstByteRows _ hjump] at h ⊢

/-! ## Bytes that are no control transfer (00_scope.md section 3.2) -/

/-- The first bytes that R62 and R63 list: of operations, and the prefixes. -/
def firstBytes : List Byte :=
  [0x10, 0x18, 0x20, 0x28, 0x30, 0x38, 0xC0, 0xC8, 0xD0, 0xD8, 0xE0, 0xE8, 0xF0, 0xF8, 0xC2, 0xCA, 0xD2,
    0xDA, 0xE2, 0xEA, 0xF2, 0xFA, 0xC3, 0xC4, 0xCC, 0xD4, 0xDC, 0xE4, 0xEC, 0xF4, 0xFC, 0xC7, 0xCF, 0xD7, 0xDF,
    0xE7, 0xEF, 0xF7, 0xFF, 0xC9, 0xCD, 0xE9, 0xDD, 0xFD, 0xED]

theorem lookupRow_eq_none_or_mem_firstBytes :
    ∀ b : Byte, lookupRow (firstByteRows .hl).dropLast b = none ∨ b ∈ firstBytes := by
  decide

theorem decodeWith_of_not_mem_firstBytes {b : Byte} (h : b ∉ firstBytes) (x : IndexReg) (rest : List Byte) :
    decodeWith x (b :: rest) = .reject (.notControlTransfer b) := by
  have hne : ∀ c ∈ firstBytes, b ≠ c := fun c hc hb => h (hb ▸ hc)
  have hpre : indexPrefix b = none := by
    rw [indexPrefix, if_neg (hne 0xDD (by decide)), if_neg (hne 0xFD (by decide))]
  rw [decodeWith_of_row hpre (hne 0xED (by decide)), lookupRow_firstByteRows x (hne 0xE9 (by decide)),
    (lookupRow_eq_none_or_mem_firstBytes b).resolve_right h, Option.elim_none]

/-- The second bytes that R62 and R63 list on the page `0xED`. -/
def edBytes : List Byte := [0x45, 0x4D, 0x55, 0x5D, 0x65, 0x6D, 0x75, 0x7D]

theorem lookupRow_eq_none_or_mem_edBytes : ∀ b : Byte, lookupRow edRows b = none ∨ b ∈ edBytes := by decide

theorem decodeEd_of_not_mem_edBytes {b : Byte} (h : b ∉ edBytes) (rest : List Byte) :
    decodeEd (b :: rest) = .reject (.notControlTransferEd b) := by
  rw [decodeEd_cons, (lookupRow_eq_none_or_mem_edBytes b).resolve_right h, Option.elim_none]

/-! ## Bytes that ask for more -/

theorem decodeEd_cons_ne_needMore (b : Byte) (rest : List Byte) : decodeEd (b :: rest) ≠ .needMore := by
  rw [decodeEd_cons]
  cases lookupRow edRows b <;> nofun

theorem eq_of_indexPrefix_eq_some {b : Byte} {x : IndexReg} (h : indexPrefix b = some x) : b = 0xDD ∨ b = 0xFD := by
  rw [indexPrefix] at h
  split at h
  · next hb => exact .inl hb
  · split at h
    · next hb => exact .inr hb
    · cases h

/-- Bytes that ask for more are index prefixes, but for the last of them. -/
theorem prefixes_of_decodeWith_snoc_needMore {x : IndexReg} {pre : List Byte} {b : Byte}
    (h : decodeWith x (pre ++ [b]) = .needMore) : ∀ p ∈ pre, p = 0xDD ∨ p = 0xFD := by
  induction pre generalizing x with
  | nil => exact fun p hp => absurd hp List.not_mem_nil
  | cons c pre ih =>
    rw [List.cons_append] at h
    cases hpre : indexPrefix c with
    | some y =>
      rw [decodeWith_of_indexPrefix hpre] at h
      exact List.forall_mem_cons.2 ⟨eq_of_indexPrefix_eq_some hpre, ih h⟩
    | none =>
      by_cases hed : c = 0xED
      · subst hed
        rw [decodeWith_ed] at h
        cases pre with
        | nil => exact absurd h (decodeEd_cons_ne_needMore _ _)
        | cons d pre => exact absurd h (decodeEd_cons_ne_needMore _ _)
      · rw [decodeWith_of_row hpre hed] at h
        cases hrow : lookupRow (firstByteRows x) c with
        | none => rw [hrow] at h; cases h
        | some j => rw [hrow] at h; cases h

theorem decode_prefixes {pre : List Byte} (hp : ∀ p ∈ pre, p = 0xDD ∨ p = 0xFD) : decode pre = .needMore := by
  obtain ⟨y, hy⟩ := decodeWith_prefixes hp .hl
  rw [decode, ← List.append_nil pre, hy, decodeWith]

namespace Machine

/-- Settles O2: the rows of R62 make well-formed operations alone (C6), and hand on what follows the byte they match. -/
theorem decodedOperationsAreWellFormed : Obligations.DecodedOperationsAreWellFormed :=
  fun _ _ _ => decodeWith_eq_op

/-- Settles O3: a string of prefixes sets the current index register, which the index jump alone reads (R63). -/
theorem indexPrefixesSelectOnlyTheJumpRegister : Obligations.IndexPrefixesSelectOnlyTheJumpRegister := by
  intro pre rest hpre
  obtain ⟨y, hy⟩ := decodeWith_prefixes hpre .hl
  refine ⟨(hy _).trans rfl, (hy _).trans rfl, fun i hw hi => ?_⟩
  have hop : decode (encode i ++ rest) = .op i rest := decodeWith_op_append (decode_encode hw)
  rw [List.append_assoc, decode, hy]
  exact decodeWith_of_ne_indexJump hop hi y

/-- Settles O4: each word by its row of R62 and its operand by R55 and R57. -/
theorem writtenOutWordsDecode : Obligations.WrittenOutWordsDecode :=
  ⟨rfl, rfl, rfl, rfl, rfl, rfl, rfl, rfl, rfl⟩

/-- Settles O5: the page `0xED` has a row for each duplicate (R63). -/
theorem duplicateReturnBytesAreRetn : Obligations.DuplicateReturnBytesAreRetn := by
  have hrow : ∀ b ∈ ([0x55, 0x65, 0x75, 0x5D, 0x6D, 0x7D] : List Byte), lookupRow edRows b = some .retn := by decide
  intro b hb rest
  rw [decode, decodeWith_ed, decodeEd_cons, hrow b hb, Option.elim_some]

/-! ## A fetch that finds no operation -/

/-- In the default environment the fetch goes past bytes that ask for more, and then reads the next one. -/
theorem fetchOpcode_of_needMore {s : State} {pre : List Byte} (hp : s.Plain) (hlen : pre.length < Config.fetchLimit)
    (hpre : decode pre = .needMore) (hb : BytesAt s s.pc pre) :
    ∃ fuel, fetchOpcode s =
      fetchOpcodeAfter (fuel + 1) pre (s.setPc (s.pc + BitVec.ofNat 16 pre.length)) := by
  obtain ⟨fuel, hfuel⟩ := Nat.exists_eq_add_of_lt hlen
  have hlimit : Config.fetchLimit = fuel + 1 + pre.length := by omega
  refine ⟨fuel, ?_⟩
  rw [fetchOpcode, hlimit, fetchOpcodeAfter_skip (seen := []) (fuel + 1) hp hpre hb, List.nil_append]

/-- Bytes that the decoder rejects are refused when it does so, at the latest after the last of them. -/
theorem fetchOpcode_of_reject {s : State} {bytes : List Byte} {r : Reject} (hp : s.Plain)
    (hlen : bytes.length ≤ Config.fetchLimit) (hd : decode bytes = .reject r) (hb : BytesAt s s.pc bytes) :
    fetchOpcode s = .refuse (.undecoded r) := by
  rcases decodeWith_needMore_or (bytes := bytes) .hl with hmore | ⟨pre, b, post, rfl, hpre, hanswer⟩
  · exact absurd (hd.symm.trans hmore) nofun
  obtain ⟨hbpre, hnext, -⟩ := (bytesAt_append ..).1 hb
  rw [← List.singleton_append, ← List.append_assoc] at hd
  have hreject : decode (pre ++ [b]) = .reject r := by
    cases h : decodeWith .hl (pre ++ [b]) with
    | needMore => exact absurd h hanswer
    | op i rest => exact absurd (hd.symm.trans (decodeWith_op_append h)) nofun
    | reject r' =>
      cases (decodeWith_reject_append h).symm.trans hd
      exact h
  have hshort : pre.length < Config.fetchLimit := by
    rw [List.length_append, List.length_cons] at hlen
    omega
  obtain ⟨fuel, hfetch⟩ := fetchOpcode_of_needMore hp hshort hpre hbpre
  have hp' : (s.setPc (s.pc + BitVec.ofNat 16 pre.length)).Plain := hp
  rw [hfetch, fetchOpcodeAfter_succ_plain fuel hp', State.setPc_byteAt, State.setPc_pc, hnext, hreject]

theorem step_of_refuse {s : State} {r : Refusal} (h : fetchOpcode s = .refuse r) : step s = .refused r := by
  rw [step, h]

/-- Settles O11: what the decoder rejects is refused with its reason, and it rejects all that R62 and R63 do not
list, whichever index register the prefixes have made current. -/
theorem stepRefusesOtherInstructions : Obligations.StepRefusesOtherInstructions := by
  refine ⟨fun s bytes r hp hlen hd hb => step_of_refuse (fetchOpcode_of_reject hp hlen hd hb),
    fun pre rest b hpre hb => ?_, fun pre rest b hpre hb => ?_⟩
  · obtain ⟨y, hy⟩ := decodeWith_prefixes hpre .hl
    rw [decode, hy]
    exact decodeWith_of_not_mem_firstBytes hb y rest
  · obtain ⟨y, hy⟩ := decodeWith_prefixes hpre .hl
    rw [decode, hy, decodeWith_ed, decodeEd_of_not_mem_edBytes hb]

/-! ## Index prefixes without end (log entry 14) -/

/-- The `n` bytes at an address and after it, the address wrapping. -/
def bytesFrom (s : State) (a : Word) : Nat → List Byte
  | 0 => []
  | n + 1 => bytesFrom s a n ++ [s.byteAt (a + BitVec.ofNat 16 n)]

@[simp] theorem length_bytesFrom (s : State) (a : Word) (n : Nat) : (bytesFrom s a n).length = n := by
  induction n with
  | zero => rfl
  | succ n ih => rw [bytesFrom, List.length_append, ih, List.length_singleton]

theorem bytesAt_bytesFrom (s : State) (a : Word) (n : Nat) : BytesAt s a (bytesFrom s a n) := by
  induction n with
  | zero => trivial
  | succ n ih =>
    rw [bytesFrom, bytesAt_append, length_bytesFrom]
    exact ⟨ih, rfl, trivial⟩

theorem mem_bytesFrom {s : State} {a : Word} {n : Nat} {p : Byte} :
    p ∈ bytesFrom s a n ↔ ∃ k < n, p = s.byteAt (a + BitVec.ofNat 16 k) := by
  induction n with
  | zero => simp [bytesFrom]
  | succ n ih => rw [bytesFrom, List.mem_append, ih, List.mem_singleton, Nat.exists_lt_succ_right]

/-- As many bytes as there are addresses hold all of memory. -/
theorem byteAt_mem_bytesFrom {s : State} {n : Nat} (hn : 65536 ≤ n) (a x : Word) :
    s.byteAt x ∈ bytesFrom s a n := by
  refine mem_bytesFrom.2 ⟨(x - a).toNat, Nat.lt_of_lt_of_le (x - a).isLt hn, ?_⟩
  rw [BitVec.ofNat_toNat, BitVec.setWidth_eq, BitVec.add_comm, BitVec.sub_add_cancel]

/-- Bytes at `PC` that ask for more, as many as the fetch may read, use it up. -/
theorem fetchOpcode_of_needMore_limit {s : State} {bytes : List Byte} (hp : s.Plain)
    (hlen : bytes.length = Config.fetchLimit) (hd : decode bytes = .needMore) (hb : BytesAt s s.pc bytes) :
    fetchOpcode s = .refuse .endlessPrefixes := by
  have hskip := fetchOpcodeAfter_skip (seen := []) 0 hp hd hb
  rw [Nat.zero_add] at hskip
  rw [fetchOpcode, ← hlen, hskip, fetchOpcodeAfter]

theorem step_ne_endlessPrefixes_of_op {s : State} {bytes : List Byte} {i : Instr} (hp : s.Plain)
    (hlen : bytes.length ≤ Config.fetchLimit) (hd : decode bytes = .op i []) (hb : BytesAt s s.pc bytes) :
    step s ≠ .refused .endlessPrefixes := by
  have hp' : (s.setPc (s.pc + BitVec.ofNat 16 bytes.length)).Plain := hp
  obtain ⟨t, hexec⟩ := everyOperationIsTotal i _ hp'
  rw [step_of_fetchOpcode (fetchOpcode_plain hp hlen hd hb), hexec]
  nofun

/-- A step refused for prefixes without end has read bytes that ask for more up to the limit. -/
theorem needMore_of_step_endlessPrefixes {s : State} {bytes : List Byte} (hp : s.Plain)
    (hlen : bytes.length ≤ Config.fetchLimit) (hb : BytesAt s s.pc bytes) (h : step s = .refused .endlessPrefixes) :
    decode bytes = .needMore := by
  cases hd : decode bytes with
  | needMore => rfl
  | reject r =>
    have hrefused := h.symm.trans (step_of_refuse (fetchOpcode_of_reject hp hlen hd hb))
    cases hrefused
  | op i rest =>
    obtain ⟨-, opcode, -, hop, rfl⟩ := decodeWith_eq_op hd
    rw [List.length_append] at hlen
    exact absurd h (step_ne_endlessPrefixes_of_op hp (by omega) hop ((bytesAt_append ..).1 hb).1)

/-- One byte less than the limit is still all of memory. -/
theorem fetchLimit_eq_succ : ∃ n, 65536 ≤ n ∧ n + 1 = Config.fetchLimit := ⟨65537, by omega, rfl⟩

/-- Settles O55: bytes that ask for more are prefixes but for the last, and those before the last are all of memory. -/
theorem stepRefusesEndlessPrefixes : Obligations.StepRefusesEndlessPrefixes := by
  intro s hp
  obtain ⟨n, hn, hlimit⟩ := fetchLimit_eq_succ
  have hlen : (bytesFrom s s.pc (n + 1)).length = Config.fetchLimit := by rw [length_bytesFrom, hlimit]
  have hb : BytesAt s s.pc (bytesFrom s s.pc (n + 1)) := bytesAt_bytesFrom ..
  constructor
  · intro h a
    have hmore := needMore_of_step_endlessPrefixes hp hlen.le hb h
    exact prefixes_of_decodeWith_snoc_needMore hmore _ (byteAt_mem_bytesFrom hn s.pc a)
  · intro hall
    refine step_of_refuse (fetchOpcode_of_needMore_limit hp hlen (decode_prefixes fun p hmem => ?_) hb)
    obtain ⟨k, -, rfl⟩ := mem_bytesFrom.1 hmem
    exact hall _

end Machine

end Sys2Proof

/-!
The reach of the relative transfers (40_pc_alu_relative.md R76), the `DJNZ` that jumps to itself as steps of the
machine (44_djnz.md R112), a fetch after a push (20_memory.md R41, R43), and the entry to a handler with the return
from it (60_exceptions.md R126, R128).
-/

namespace Sys2Proof.Machine

/-! ## The 256 displacements (R76) -/

/-- Sign extension orders the displacements from -128 to 127 (R74). -/
theorem sext16_eq (d : Byte) : sext16 d = BitVec.ofNat 16 ((d.toNat + 128) % 256) - 128#16 := by
  have hd : d.toNat < 256 := d.isLt
  apply BitVec.eq_of_toNat_eq
  rw [BitVec.toNat_sub, BitVec.toNat_ofNat, BitVec.toNat_ofNat, sext16_toNat]
  split <;> omega

/-- The addresses that a relative transfer from `pc` can reach, `pc` being the next instruction's. -/
def Reaches (pc target : Word) : Prop := ∃ k < 256, target = pc - 128#16 + BitVec.ofNat 16 k

theorem reaches_add_sext16 (pc : Word) (d : Byte) : Reaches pc (pc + sext16 d) := by
  refine ⟨(d.toNat + 128) % 256, Nat.mod_lt _ (by decide), ?_⟩
  rw [sext16_eq]
  bv_omega

theorem reaches_self (pc : Word) : Reaches pc pc := ⟨128, by decide, (BitVec.sub_add_cancel pc 128#16).symm⟩

theorem relativeTransfer_reaches {i : Instr} {s t : State} (hi : i = .jr ∨ i = .djnz ∨ ∃ cc, i = .jrCc cc)
    (h : exec i s = .next t) : Reaches (s.pc + 1#16) t.pc := by
  rcases hi with rfl | rfl | ⟨cc, rfl⟩
  · cases exec_jr_eq_next h
    exact reaches_add_sext16 ..
  · cases exec_djnz_eq_next h
    rw [State.setPc_pc]
    split
    · exact reaches_self _
    · exact reaches_add_sext16 ..
  · cases exec_jrCc_eq_next h
    rw [State.setPc_pc]
    split
    · exact reaches_add_sext16 ..
    · exact reaches_self _

/-- The displacement that leads to the `k`-th of the 256 addresses. -/
theorem add_sext16_ofNat {k : Nat} (hk : k < 256) (pc : Word) :
    pc + sext16 (BitVec.ofNat 8 (k + 128)) = pc - 128#16 + BitVec.ofNat 16 k := by
  have hplace : ((BitVec.ofNat 8 (k + 128)).toNat + 128) % 256 = k := by
    rw [BitVec.toNat_ofNat]
    omega
  rw [sext16_eq, hplace]
  bv_omega

/-- Settles O13: a displacement is one of 256, and each of them is some byte's (R74, R76). -/
theorem relativeTransferReach : Obligations.RelativeTransferReach := by
  refine ⟨fun i s t hi h => relativeTransfer_reaches hi h, fun s k hp hinv hk => ?_⟩
  have hp' : (s.storeByte s.pc (BitVec.ofNat 8 (k + 128))).Plain := hp
  refine ⟨_, _, exec_jr_plain hp', ?_⟩
  rw [State.setPc_pc, State.storeByte_pc, State.storeByte_byteAt_same hinv, add_sext16_ofNat hk]

/-! ## A `DJNZ` that jumps to itself (R112) -/

/-- One pass of the loop: the register is lowered, and `PC` is past the instruction once that is 0. -/
theorem step_djnzToItself {s : State} (hp : s.Plain) (hb : BytesAt s s.pc [0x10, 0xFE]) :
    step s = .next ((s.setB (decrement8 s.b)).setPc
      (if decrement8 s.b = 0 then s.pc + 2#16 else s.pc)) := by
  obtain ⟨hopcode, hdisp, -⟩ := hb
  have hfetch : fetchOpcode s = .ok .djnz (s.setPc (s.pc + 1#16)) :=
    fetchOpcode_plain (bytes := [0x10]) hp (by decide) rfl ⟨hopcode, trivial⟩
  have hp' : (s.setPc (s.pc + 1#16)).Plain := hp
  have hself : s.pc + 1#16 + 1#16 + sext16 0xFE = s.pc := by
    rw [show sext16 0xFE = 0#16 - 2#16 from rfl]
    bv_omega
  have hpast : s.pc + 1#16 + 1#16 = s.pc + 2#16 := by bv_omega
  rw [step_of_fetchOpcode hfetch, exec_djnz_plain hp', State.setPc_b, State.setPc_pc, State.setPc_byteAt, hdisp,
    hself, hpast]
  rfl

theorem run_succ_of_step {M : Host.Core} {s t : M.State} (h : M.step s = .next t) (k : Nat) :
    M.run (k + 1) s = M.run k t := by
  rw [Host.Core.run, h]

section DjnzToItself

variable {s : State} (hp : s.Plain) (hb : BytesAt s s.pc [0x10, 0xFE])
include hp hb

/-- A pass that is not the last leads to the same instruction with one pass less. -/
theorem step_djnzToItself_of_jump (hjump : decrement8 s.b ≠ 0) : step s = .next (s.setB (decrement8 s.b)) := by
  rw [step_djnzToItself hp hb, if_neg hjump]
  rfl

theorem run_djnzToItself_of_lt {k : Nat} (hk : k < djnzPasses s.b) :
    Sys2Proof.core.run k s = .next (s.setB (s.b - BitVec.ofNat 8 k)) := by
  induction k generalizing s with
  | zero =>
    rw [BitVec.sub_zero]
    rfl
  | succ k ih =>
    have hjump : decrement8 s.b ≠ 0 := by
      rw [ne_eq, decrement8_eq_zero_iff]
      omega
    have hleft := djnzPasses_decrement8 hjump
    have hcount : decrement8 s.b - BitVec.ofNat 8 k = s.b - BitVec.ofNat 8 (k + 1) := by
      rw [decrement8, BitVec.ofNat_add]
      bv_omega
    have hrest := ih (s := s.setB (decrement8 s.b)) hp hb (by rw [State.setB_b]; omega)
    rw [State.setB_b, hcount] at hrest
    exact (run_succ_of_step (M := core) (step_djnzToItself_of_jump hp hb hjump) k).trans hrest

theorem run_djnzToItself_to_end {n : Nat} (hn : djnzPasses s.b = n + 1) :
    Sys2Proof.core.run (n + 1) s = .next ((s.setB 0).setPc (s.pc + 2#16)) := by
  induction n generalizing s with
  | zero =>
    have hfall : decrement8 s.b = 0 := (decrement8_eq_zero_iff s.b).2 hn
    have hlast := step_djnzToItself hp hb
    rw [if_pos hfall, hfall] at hlast
    exact run_succ_of_step (M := core) hlast 0
  | succ n ih =>
    have hjump : decrement8 s.b ≠ 0 := by
      rw [ne_eq, decrement8_eq_zero_iff]
      omega
    have hleft := djnzPasses_decrement8 hjump
    have hrest := ih (s := s.setB (decrement8 s.b)) hp hb (by rw [State.setB_b]; omega)
    exact (run_succ_of_step (M := core) (step_djnzToItself_of_jump hp hb hjump) (n + 1)).trans hrest

end DjnzToItself

/-- Settles O46, by induction on the passes that are left (R110, R112). -/
theorem djnzToItselfRunsCountSteps : Obligations.DjnzToItselfRunsCountSteps := by
  intro s hp hb
  obtain ⟨n, hn⟩ := Nat.exists_eq_succ_of_ne_zero (djnzPasses_pos s.b).ne'
  have hend := run_djnzToItself_to_end hp hb hn
  rw [← Nat.succ_eq_add_one, ← hn] at hend
  exact ⟨fun k hk => run_djnzToItself_of_lt hp hb hk, hend⟩

/-! ## A fetch after a push (20_memory.md R41, R43) -/

theorem exec_call_calledFrom_of_next {s t : State} (hp : s.Plain) (hinv : s.Inv) (h : exec .call s = .next t) :
    CalledFrom s (s.pc + 2#16) (s.wordAt s.pc) t := by
  obtain ⟨u, hcall, hleft⟩ := exec_call_plain_calledFrom hp hinv
  cases hcall.symm.trans h
  exact hleft

theorem CalledFrom.plain {s t : State} {ra target : Word} (h : CalledFrom s ra target t) (hp : s.Plain) :
    t.Plain := by
  obtain ⟨-, -, -, -, -, -, -, -, -, -, -, henv⟩ := h
  exact henv.trans hp

/-- Settles O47: the operand is fetched before the push, and the word at the new `SP` is the pushed one (R41, R43). -/
theorem fetchSeesPushedBytes : Obligations.FetchSeesPushedBytes := by
  intro s t hp hinv h
  have hleft := exec_call_calledFrom_of_next hp hinv h
  have hpushed := hleft.wordAt_sp
  have ⟨htarget, hsp, _⟩ := hleft
  have hpt : (t.setPc t.sp).Plain := hleft.plain hp
  refine ⟨htarget, ?_, fun hover => ?_⟩
  · rw [exec_jp_plain hpt, State.setPc_setPc, State.setPc_wordAt, State.setPc_pc, hsp, hpushed]
  · rw [hover, BitVec.add_sub_cancel] at hpushed
    exact hpushed

/-! ## Entry to a handler and the return from it (60_exceptions.md R126, R128) -/

theorem systemStep_interrupt (handler : Word) (s : State) :
    systemStep (some (.interrupt handler)) s = (subCall handler s).outcome := rfl

theorem systemStep_nmi (handler : Word) (s : State) :
    systemStep (some (.nmi handler)) s =
      ((subCall handler s).bind fun _ s => .ok () (s.setInNmi true)).outcome := rfl

/-- A return from the state that an entry has left goes back to the interrupted `PC` and `SP`. -/
theorem CalledFrom.return_pc_sp {s t : State} {ra target : Word} (h : CalledFrom s ra target t) :
    t.wordAt t.sp = ra ∧ t.sp + 2#16 = s.sp := by
  have hpushed := h.wordAt_sp
  obtain ⟨-, hsp, -⟩ := h
  rw [hsp]
  exact ⟨hpushed, BitVec.sub_add_cancel ..⟩

theorem nmiEntryAndReturn_plain {s : State} (hp : s.Plain) (hinv : s.Inv) (handler : Word) :
    ∃ t, systemStep (some (.nmi handler)) s = .next (t.setInNmi true) ∧ CalledFrom s s.pc handler t ∧
      ∃ u, exec .retn (t.setInNmi true) = .next u ∧ u.pc = s.pc ∧ u.sp = s.sp ∧ u.inNmi = false := by
  obtain ⟨t, hcall, hleft⟩ := subCall_plain_calledFrom hp hinv handler
  have hpt : (t.setInNmi true).Plain := hleft.plain hp
  obtain ⟨hpc, hsp⟩ := hleft.return_pc_sp
  refine ⟨t, ?_, hleft, _, exec_retn_plain hpt, hpc, hsp, rfl⟩
  rw [systemStep_nmi, hcall, Micro.bind_ok, Micro.outcome_ok]

theorem interruptEntryAndReturn_plain {s : State} (hp : s.Plain) (hinv : s.Inv) (handler : Word) :
    ∃ t, systemStep (some (.interrupt handler)) s = .next t ∧ CalledFrom s s.pc handler t ∧
      ∃ u, exec .reti t = .next u ∧ u.pc = s.pc ∧ u.sp = s.sp ∧ u.inNmi = s.inNmi := by
  obtain ⟨t, hcall, hleft⟩ := subCall_plain_calledFrom hp hinv handler
  obtain ⟨hpc, hsp⟩ := hleft.return_pc_sp
  have hflag : t.inNmi = s.inNmi := subCall_inNmi hcall
  refine ⟨t, ?_, hleft, _, exec_reti_plain (hleft.plain hp), hpc, hsp, hflag⟩
  rw [systemStep_interrupt, hcall, Micro.outcome_ok]

/-- Settles O49: an entry is a call of the handler, and the returns pop what it has pushed (R126, R128, R131). -/
theorem interruptEntryAndReturn : Obligations.InterruptEntryAndReturn := by
  refine ⟨fun handler s hp hinv => ?_, fun handler s hp hinv => interruptEntryAndReturn_plain hp hinv handler⟩
  obtain ⟨t, hentry, ⟨hpc, hsp, -, -, hbytes, hcount, -, houtside⟩, hreturn⟩ :=
    nmiEntryAndReturn_plain hp hinv handler
  exact ⟨_, hentry, hpc, hsp, rfl, hbytes, hcount, houtside, hreturn⟩

end Sys2Proof.Machine

/-!
The faults of 60_exceptions.md R121: a fault of an operation is that of one of its environment operations. Said of
each micro-operation, with the environment that it leaves to the next.
-/

namespace Sys2Proof.Machine

/-- The fault is the failure of an environment operation that ENV_FAIL or a hole makes fail. -/
def Fault.FailedIn (env : Env) (r : Fault) : Prop :=
  ∃ call left, r = .envFail call left ∧ left.env = env ∧
    (call ∈ env.failing ∨ ∃ a, (call = .memRead a ∨ call = .memWrite a) ∧ regionKind env.memMap a = .hole)

/-- Run in an environment, a micro-operation keeps it, or stops with one of its failures. -/
def Micro.Propagates {α : Type} (env : Env) : Micro α → Prop
  | .ok _ s => s.env = env
  | .fault r => r.FailedIn env
  | .refuse _ => True

theorem Micro.Propagates.bind {α β : Type} {env : Env} {m : Micro α} {f : α → State → Micro β}
    (hm : m.Propagates env) (hf : ∀ {a s}, s.env = env → (f a s).Propagates env) : (m.bind f).Propagates env := by
  cases m with
  | ok a s => exact hf hm
  | fault r => exact hm
  | refuse r => trivial

section Propagation

variable {env : Env} {s : State} (henv : s.env = env)
include henv

theorem askEnv_propagates {α : Type} {call : EnvCall} {k : Micro α} (hk : k.Propagates env) :
    (askEnv call s k).Propagates env := by
  by_cases hfail : call ∈ s.env.failing
  · rw [askEnv_of_failing hfail]
    exact ⟨call, s, rfl, henv, .inl (henv ▸ hfail)⟩
  · rw [askEnv_of_not_failing hfail]
    exact hk

theorem readMem_propagates (a : Word) : (readMem a s).Propagates env := by
  apply askEnv_propagates henv
  cases hkind : regionKind s.env.memMap a with
  | ram | rom => exact henv
  | hole => exact ⟨_, s, rfl, henv, .inr ⟨a, .inl rfl, henv ▸ hkind⟩⟩
  | device => trivial

theorem writeMem_propagates (a : Word) (v : Byte) : (writeMem a v s).Propagates env := by
  apply askEnv_propagates henv
  cases hkind : regionKind s.env.memMap a with
  | ram | rom => exact henv
  | hole => exact ⟨_, s, rfl, henv, .inr ⟨a, .inr rfl, henv ▸ hkind⟩⟩
  | device => trivial

theorem readMem16_propagates (a : Word) : (readMem16 a s).Propagates env :=
  (readMem_propagates henv a).bind fun h => (readMem_propagates h _).bind fun h => h

theorem writeMem16_propagates (a v : Word) : (writeMem16 a v s).Propagates env :=
  (writeMem_propagates henv ..).bind fun h => writeMem_propagates h ..

theorem fetchByte_propagates : (fetchByte s).Propagates env := (readMem_propagates henv _).bind fun h => h

theorem fetchWord_propagates : (fetchWord s).Propagates env := (readMem16_propagates henv _).bind fun h => h

theorem readCount_propagates : (readCount s).Propagates env := askEnv_propagates henv henv

theorem writeCount_propagates (n : Byte) : (writeCount n s).Propagates env := askEnv_propagates henv henv

theorem loadPc_propagates (v : Word) : (loadPc v s).Propagates env := henv

theorem relJump_propagates (ofs : Byte) : (relJump ofs s).Propagates env := henv

theorem indexValue_propagates (x : IndexReg) : (indexValue x s).Propagates env := askEnv_propagates henv henv

theorem indexedJump_propagates (x : IndexReg) : (indexedJump x s).Propagates env :=
  (indexValue_propagates henv x).bind fun h => loadPc_propagates h _

theorem push16_propagates (v : Word) : (push16 v s).Propagates env :=
  (writeMem16_propagates henv ..).bind fun h => h

theorem pop16_propagates : (pop16 s).Propagates env := (readMem16_propagates henv _).bind fun h => h

theorem subCall_propagates (addr : Word) : (subCall addr s).Propagates env :=
  (push16_propagates henv _).bind fun h => loadPc_propagates h addr

theorem subReturn_propagates : (subReturn s).Propagates env :=
  (pop16_propagates henv).bind fun h => loadPc_propagates h _

theorem endNmi_propagates : (endNmi s).Propagates env := askEnv_propagates henv henv

theorem nmiReturn_propagates : (nmiReturn s).Propagates env :=
  (subReturn_propagates henv).bind fun h => endNmi_propagates h

theorem readFlag_propagates (f : Flag) : (readFlag f s).Propagates env := askEnv_propagates henv henv

theorem condTrue_propagates (cc : Cond) : (condTrue cc s).Propagates env :=
  (readFlag_propagates henv cc.flag).bind fun h => h

theorem whenCond_propagates {effect : State → Micro Unit}
    (heffect : ∀ {u : State}, u.env = env → (effect u).Propagates env) (cc : Cond) :
    (whenCond cc effect s).Propagates env := by
  refine (condTrue_propagates henv cc).bind fun {holds _} h => ?_
  cases holds with
  | true => exact heffect h
  | false => exact h

theorem fallOrJump_propagates {p : Prop} [Decidable p] (ofs : Byte) :
    (if p then .ok () s else relJump ofs s).Propagates env := by
  split
  · exact henv
  · exact henv

end Propagation

theorem Micro.Propagates.failedIn {env : Env} {m : Micro Unit} {r : Fault} (hm : m.Propagates env)
    (h : m.outcome = .fault r) : r.FailedIn env := by
  rw [Micro.outcome_eq_fault h] at hm
  exact hm

/-- Settles O37, sub-step by sub-step (R121). -/
theorem faultsArePropagatedFailures : Obligations.FaultsArePropagatedFailures := by
  intro i s r h
  have hbyte := fetchByte_propagates (rfl : s.env = s.env)
  have hword := fetchWord_propagates (rfl : s.env = s.env)
  cases i with
  | djnz =>
    exact (hbyte.bind fun h => (readCount_propagates h).bind fun h => (writeCount_propagates h _).bind fun h =>
      fallOrJump_propagates h _).failedIn h
  | jr => exact (hbyte.bind fun h => relJump_propagates h _).failedIn h
  | jrCc cc => exact (hbyte.bind fun h => whenCond_propagates h (relJump_propagates · _) cc).failedIn h
  | retCc cc => exact (whenCond_propagates rfl subReturn_propagates cc).failedIn h
  | jpCc cc => exact (hword.bind fun h => whenCond_propagates h (loadPc_propagates · _) cc).failedIn h
  | jp => exact (hword.bind fun h => loadPc_propagates h _).failedIn h
  | callCc cc => exact (hword.bind fun h => whenCond_propagates h (subCall_propagates · _) cc).failedIn h
  | rst v => exact (subCall_propagates rfl _).failedIn h
  | ret => exact (subReturn_propagates rfl).failedIn h
  | call => exact (hword.bind fun h => subCall_propagates h _).failedIn h
  | jpHl => exact (indexedJump_propagates rfl .hl).failedIn h
  | jpIx => exact (indexedJump_propagates rfl .ix).failedIn h
  | jpIy => exact (indexedJump_propagates rfl .iy).failedIn h
  | retn => exact (nmiReturn_propagates rfl).failedIn h
  | reti => exact (subReturn_propagates rfl).failedIn h

end Sys2Proof.Machine

/-!
Reset (70_reset_and_hazards.md R140), the platform's ROM, holes and devices (20_memory.md R32), and the display names
(30_encoding.md R60).
-/

namespace Sys2Proof.Machine

/-! ## Reset -/

theorem resetTo_mem (p : ResetParams) (s : State) : (resetTo p s).mem = s.mem := rfl

theorem bytesAt_of_mem_eq {s t : State} (h : t.mem = s.mem) {a : Word} {bytes : List Byte} (hb : BytesAt s a bytes) :
    BytesAt t a bytes := by
  induction bytes generalizing a with
  | nil => trivial
  | cons b bytes ih =>
    obtain ⟨hfirst, hrest⟩ := hb
    exact ⟨by rw [State.byteAt, h]; exact hfirst, ih hrest⟩

/-- The step after a reset runs the operation whose opcode bytes, two at most, stand at 0x0000. -/
theorem step_resetTo {s : State} {bytes : List Byte} {i : Instr} (hp : s.Plain) (p : ResetParams)
    (hlen : bytes.length ≤ 2) (hd : decode bytes = .op i []) (hb : BytesAt s 0x0000 bytes) :
    step (resetTo p s) = exec i ((resetTo p s).setPc (0x0000 + BitVec.ofNat 16 bytes.length)) := by
  have hp' : (resetTo p s).Plain := hp
  have hb' : BytesAt (resetTo p s) 0x0000 bytes := bytesAt_of_mem_eq (resetTo_mem p s) hb
  exact step_of_fetchOpcode (fetchOpcode_plain hp' (hlen.trans (by decide)) hd hb')

/-- Settles O50: reset by its definition, the step after it by the opcode fetch (R24, R140). -/
theorem resetWritesPcAndInNmi : Obligations.ResetWritesPcAndInNmi := by
  refine ⟨fun p s => ⟨rfl, rfl, resetTo_mem p s⟩, fun s => rfl, fun p s i b hp hb hd => ?_,
    fun p s i b b' hp hb hb' _ hd => ?_⟩
  · exact step_resetTo (bytes := [b]) hp p (Nat.le_succ 1) hd ⟨hb, trivial⟩
  · exact step_resetTo (bytes := [b, b']) hp p (Nat.le_refl 2) hd ⟨hb, hb', trivial⟩

/-- Settles O51: each value as `Config` names it, and no byte is listed (R24; log entries 3, 4, 5). -/
theorem resetStateValues : Obligations.ResetStateValues :=
  ⟨rfl, rfl, rfl, rfl, rfl, rfl, rfl, rfl, fun _ => rfl, rfl⟩

/-! ## ROM, holes and devices -/

section Platform

variable {s : State} (hanswers : s.env.failing = [])
include hanswers

theorem askEnv_of_none_failing {α : Type} (call : EnvCall) (k : Micro α) : askEnv call s k = k :=
  askEnv_of_not_failing (hanswers ▸ List.not_mem_nil) k

theorem writeMem_rom {a : Word} (h : regionKind s.env.memMap a = .rom) (v : Byte) : writeMem a v s = .ok () s := by
  rw [writeMem, askEnv_of_none_failing hanswers, h]

theorem readMem_hole {a : Word} (h : regionKind s.env.memMap a = .hole) :
    readMem a s = .fault (.envFail (.memRead a) s) := by
  rw [readMem, askEnv_of_none_failing hanswers, h]

theorem writeMem_hole {a : Word} (h : regionKind s.env.memMap a = .hole) (v : Byte) :
    writeMem a v s = .fault (.envFail (.memWrite a) s) := by
  rw [writeMem, askEnv_of_none_failing hanswers, h]

theorem readMem_device {a : Word} (h : regionKind s.env.memMap a = .device) :
    readMem a s = .refuse (.deviceAccess (.memRead a)) := by
  rw [readMem, askEnv_of_none_failing hanswers, h]

theorem writeMem_device {a : Word} (h : regionKind s.env.memMap a = .device) (v : Byte) :
    writeMem a v s = .refuse (.deviceAccess (.memWrite a)) := by
  rw [writeMem, askEnv_of_none_failing hanswers, h]

end Platform

/-- Settles O52: both bytes are accepted and kept (R32, R95). -/
theorem pushToRomKeepsBytes : Obligations.PushToRomKeepsBytes := by
  intro v s hanswers hhigh hlow
  rw [exec_rst, subCall, push16, writeMem16, sp_sub_two_add_one, writeMem_rom hanswers hhigh, Micro.bind_ok,
    writeMem_rom hanswers hlow, Micro.bind_ok, Micro.bind_ok, loadPc_eq, Micro.outcome_ok]

/-! What a failed or refused access hands on: the pop, the push and the opcode fetch begin with one. -/

theorem exec_ret_of_readMem_fault {s : State} {r : Fault} (h : readMem s.sp s = .fault r) : exec .ret s = .fault r := by
  rw [exec_ret, subReturn, pop16, readMem16, h]
  rfl

theorem exec_ret_of_readMem_refuse {s : State} {r : Refusal} (h : readMem s.sp s = .refuse r) :
    exec .ret s = .refused r := by
  rw [exec_ret, subReturn, pop16, readMem16, h]
  rfl

theorem exec_rst_of_writeMem_fault {s : State} {r : Fault}
    (h : writeMem (s.sp - 1#16) (s.pc.extractLsb' 8 8) s = .fault r) (v : Byte) : exec (.rst v) s = .fault r := by
  rw [exec_rst, subCall, push16, writeMem16, sp_sub_two_add_one, h]
  rfl

theorem exec_rst_of_writeMem_refuse {s : State} {r : Refusal}
    (h : writeMem (s.sp - 1#16) (s.pc.extractLsb' 8 8) s = .refuse r) (v : Byte) : exec (.rst v) s = .refused r := by
  rw [exec_rst, subCall, push16, writeMem16, sp_sub_two_add_one, h]
  rfl

theorem step_of_readMem_fault {s : State} {r : Fault} (h : readMem s.pc s = .fault r) : step s = .fault r := by
  obtain ⟨n, -, hlimit⟩ := fetchLimit_eq_succ
  rw [step, fetchOpcode, ← hlimit, fetchOpcodeAfter, fetchByte, h]
  rfl

theorem step_of_readMem_refuse {s : State} {r : Refusal} (h : readMem s.pc s = .refuse r) : step s = .refused r := by
  obtain ⟨n, -, hlimit⟩ := fetchLimit_eq_succ
  rw [step, fetchOpcode, ← hlimit, fetchOpcodeAfter, fetchByte, h]
  rfl

/-- Settles O53: the access to the first byte decides (R32, R121; log entries 6, 8, 13). -/
theorem holesFailDevicesAreRefused : Obligations.HolesFailDevicesAreRefused := fun _ hanswers =>
  ⟨fun _ v h => ⟨readMem_hole hanswers h, writeMem_hole hanswers h v⟩,
    fun _ v h => ⟨readMem_device hanswers h, writeMem_device hanswers h v⟩,
    fun h => exec_ret_of_readMem_fault (readMem_hole hanswers h),
    fun h => exec_ret_of_readMem_refuse (readMem_device hanswers h),
    fun v h => exec_rst_of_writeMem_fault (writeMem_hole hanswers h _) v,
    fun v h => exec_rst_of_writeMem_refuse (writeMem_device hanswers h _) v,
    fun h => step_of_readMem_fault (readMem_hole hanswers h),
    fun h => step_of_readMem_refuse (readMem_device hanswers h)⟩

/-! ## Display names (30_encoding.md R59, R60) -/

theorem hexDigit_eq : ∀ n < 16, hexDigit n = "0123456789abcdef".toList.getD n ' ' := by decide

/-- The two digits of a byte written from its halves. -/
theorem hexByte_ofNat {hi lo : Nat} (hhi : hi < 16) (hlo : lo < 16) :
    hexByte (BitVec.ofNat 8 (16 * hi + lo)) =
      String.ofList ["0123456789abcdef".toList.getD hi ' ', "0123456789abcdef".toList.getD lo ' '] := by
  have hbyte : (BitVec.ofNat 8 (16 * hi + lo)).toNat = 16 * hi + lo := by
    rw [BitVec.toNat_ofNat]
    omega
  have hhigh : (16 * hi + lo) / 16 = hi := by omega
  have hlow : (16 * hi + lo) % 16 = lo := by omega
  rw [hexByte, hbyte, hhigh, hlow, hexDigit_eq hi hhi, hexDigit_eq lo hlo]

/-- Settles O54: the fixed and the conditional names by R60's table, the restarts digit by digit (R59). -/
theorem displayNamesFollowThePattern : Obligations.DisplayNamesFollowThePattern := by
  refine ⟨rfl, rfl, rfl, rfl, rfl, rfl, rfl, rfl, rfl, rfl, rfl, rfl, rfl, rfl, rfl, rfl, rfl, rfl, rfl, rfl,
    fun hi hhi lo hlo => ?_⟩
  rw [displayName, hexByte_ofNat hhi hlo]

end Sys2Proof.Machine
